-- ==== Sys2Proof/Word.lean ====
section
/-! DEFINITION. The words of the CHIP-8 core: bytes, instruction words, addresses, register and key numbers. -/

namespace Sys2Proof

/-- A memory byte, a general register, a timer (10_state.md R20, R34; 20_memory.md R50). -/
abbrev Byte := BitVec 8

/-- An instruction word (30_encoding.md R70). -/
abbrev Word := BitVec 16

/-- A 12-bit address: the program counter, a return address, a memory address taken modulo 4096 (10_state.md R24,
20_memory.md R51). -/
abbrev Addr := BitVec 12

/-- A 4-bit field of an instruction word (30_encoding.md R71). -/
abbrev Nibble := BitVec 4

/-- The number of a general register, the 4-bit `x` or `y` field (10_state.md R20). -/
abbrev RegIx := BitVec 4

/-- The number of a logical key, 0x0 to 0xF (60_exceptions.md R159). -/
abbrev Key := BitVec 4

/-- The number of the flag register VF (10_state.md R22). -/
abbrev vf : RegIx := 0xF#4

end Sys2Proof
end

