-- ==== Sys2Proof/Config.lean ====
section
/-! DEFINITION. What is fixed when a CORE is constructed (00_scope.md R5, R6; 10_state.md R41, R42), and the free value of
the model, the random byte of Cxnn. -/

namespace Sys2Proof

/-- The quirk record `Q` (10_state.md R41). -/
structure Quirks where
  /-- 8xy1, 8xy2, 8xy3 set VF := 0 after writing Vx. -/
  vfReset : Bool
  /-- Fx55 and Fx65 leave I := I + x + 1. -/
  memoryIncrement : Bool
  /-- Dxyn blocks until a tick has occurred since the last draw. -/
  displayWait : Bool
  /-- When Dxyn would block, it ticks the timers inline and draws. -/
  displayWaitFaker : Bool
  /-- Sprite pixels outside the display are skipped (else they wrap). -/
  clipping : Bool
  /-- 8xy6 and 8xyE shift Vx in place (else they shift Vy into Vx). -/
  shifting : Bool
  /-- Bnnn jumps to nnn + Vx (else to nnn + V0). -/
  jumping : Bool
  deriving DecidableEq, Repr

/-- `P_FONT_WRITE`: what a store to a font cell does (20_memory.md R52). -/
inductive FontWritePolicy where
  /-- The store changes nothing and raises nothing (this hardware). -/
  | discard
  /-- The instruction raises `FontWrite` before any of its writes. -/
  | fault
  deriving DecidableEq, Repr

/-- `P_KEY_OOR`: what Ex9E and ExA1 do with a key number of 16 or more (44_timers_keys.md R137). -/
inductive KeyPolicy where
  /-- The instruction raises `KeyIndexOutOfRange` (this hardware). -/
  | fault
  /-- The key is the low nibble of the number. -/
  | lowNibble
  deriving DecidableEq, Repr

/-- The configuration of a CORE: what `construct` is given (60_exceptions.md R160) and the named parameters of
00_scope.md R5. -/
structure Config where
  quirks : Quirks
  /-- `W`, the display's columns. -/
  width : Nat
  /-- `H`, the display's rows. -/
  height : Nat
  /-- `STACK_DEPTH`, the capacity of the return-address stack. -/
  stackDepth : Nat
  /-- `FONT`, the bytes of the cells 0x000 to 0x04F (20_memory.md R53). -/
  font : Vector Byte 80
  fontWrite : FontWritePolicy
  keyOutOfRange : KeyPolicy
  deriving DecidableEq, Repr

/-- The quirk record's values for this hardware, the document's defaults (10_state.md R41). -/
def Quirks.hardware : Quirks where
  vfReset := true
  memoryIncrement := true
  displayWait := true
  displayWaitFaker := false
  clipping := true
  shifting := false
  jumping := false

/-- The 80 font bytes, one line per glyph, top row first (20_memory.md R53). PRESUMED: the spec marks them as general
knowledge, not the source's (notes/assumptions/2.md). unsafe: a claim about a glyph's pixels rests on them. -/
def Config.conventionalFont : Vector Byte 80 :=
  #v[0xF0, 0x90, 0x90, 0x90, 0xF0,  -- 0
     0x20, 0x60, 0x20, 0x20, 0x70,  -- 1
     0xF0, 0x10, 0xF0, 0x80, 0xF0,  -- 2
     0xF0, 0x10, 0xF0, 0x10, 0xF0,  -- 3
     0x90, 0x90, 0xF0, 0x10, 0x10,  -- 4
     0xF0, 0x80, 0xF0, 0x10, 0xF0,  -- 5
     0xF0, 0x80, 0xF0, 0x90, 0xF0,  -- 6
     0xF0, 0x10, 0x20, 0x40, 0x40,  -- 7
     0xF0, 0x90, 0xF0, 0x90, 0xF0,  -- 8
     0xF0, 0x90, 0xF0, 0x10, 0xF0,  -- 9
     0xF0, 0x90, 0xF0, 0x90, 0x90,  -- A
     0xE0, 0x90, 0xE0, 0x90, 0xE0,  -- B
     0xF0, 0x80, 0x80, 0x80, 0xF0,  -- C
     0xE0, 0x90, 0x90, 0x90, 0xE0,  -- D
     0xF0, 0x80, 0xF0, 0x80, 0xF0,  -- E
     0xF0, 0x80, 0xF0, 0x80, 0x80]  -- F

/-- The values of this hardware (00_scope.md R5; 10_state.md R41, R42; 92_eei_decisions.md D4, D5, D13, D34). -/
def Config.hardware : Config where
  quirks := Quirks.hardware
  width := 64
  height := 32
  stackDepth := 24
  font := Config.conventionalFont
  fontWrite := .discard
  keyOutOfRange := .fault

/-- The random source (42_alu.md R122): the byte of the n-th draw. A FREE VALUE with no body: any byte, no relation
assumed between draws (notes/assumptions/3.md). safe: every claim holds for every source. -/
opaque Config.randomByte : Nat → Byte

end Sys2Proof
end

