-- ==== Sys2Proof/Syntax.lean ====
section
/-! DEFINITION. The instructions: one constructor per row of spec/opcode_table.json, in the table's order (30_encoding.md
R74), and the six encoding formats (R72). -/

namespace Sys2Proof

/-- The instruction set of the CORE (30_encoding.md R74). Operands are the fields of R71: `x`, `y` register numbers,
`nn` an immediate byte, `nnn` an absolute address, `n` a sprite height. -/
inductive Instr where
  /-- 00E0 `CLS` -/
  | cls
  /-- 00EE `RET` -/
  | ret
  /-- 1nnn `JP nnn` -/
  | jp (nnn : Addr)
  /-- 2nnn `CALL nnn` -/
  | call (nnn : Addr)
  /-- 3xnn `SE Vx, nn` -/
  | seByte (x : RegIx) (nn : Byte)
  /-- 4xnn `SNE Vx, nn` -/
  | sneByte (x : RegIx) (nn : Byte)
  /-- 5xy0 `SE Vx, Vy` -/
  | seReg (x y : RegIx)
  /-- 9xy0 `SNE Vx, Vy` -/
  | sneReg (x y : RegIx)
  /-- 6xnn `LD Vx, nn` -/
  | ldByte (x : RegIx) (nn : Byte)
  /-- 7xnn `ADD Vx, nn` -/
  | addByte (x : RegIx) (nn : Byte)
  /-- 8xy0 `LD Vx, Vy` -/
  | ldReg (x y : RegIx)
  /-- 8xy1 `OR Vx, Vy` -/
  | orReg (x y : RegIx)
  /-- 8xy2 `AND Vx, Vy` -/
  | andReg (x y : RegIx)
  /-- 8xy3 `XOR Vx, Vy` -/
  | xorReg (x y : RegIx)
  /-- 8xy4 `ADD Vx, Vy` -/
  | addReg (x y : RegIx)
  /-- 8xy5 `SUB Vx, Vy` -/
  | subReg (x y : RegIx)
  /-- 8xy6 `SHR Vx, Vy` -/
  | shr (x y : RegIx)
  /-- 8xy7 `SUBN Vx, Vy` -/
  | subnReg (x y : RegIx)
  /-- 8xyE `SHL Vx, Vy` -/
  | shl (x y : RegIx)
  /-- Annn `LD I, nnn` -/
  | ldI (nnn : Addr)
  /-- Bnnn `JP V0, nnn` -/
  | jpV0 (nnn : Addr)
  /-- Cxnn `RND Vx, nn` -/
  | rnd (x : RegIx) (nn : Byte)
  /-- Dxyn `DRW Vx, Vy, n` -/
  | drw (x y : RegIx) (n : Nibble)
  /-- Ex9E `SKP Vx` -/
  | skp (x : RegIx)
  /-- ExA1 `SKNP Vx` -/
  | sknp (x : RegIx)
  /-- Fx07 `LD Vx, DT` -/
  | ldVxDt (x : RegIx)
  /-- Fx15 `LD DT, Vx` -/
  | ldDtVx (x : RegIx)
  /-- Fx18 `LD ST, Vx` -/
  | ldStVx (x : RegIx)
  /-- Fx0A `LD Vx, K` -/
  | ldVxK (x : RegIx)
  /-- Fx1E `ADD I, Vx` -/
  | addI (x : RegIx)
  /-- Fx29 `LD F, Vx` -/
  | ldF (x : RegIx)
  /-- Fx33 `LD B, Vx` -/
  | ldB (x : RegIx)
  /-- Fx55 `LD [I], Vx` -/
  | storeRegs (x : RegIx)
  /-- Fx65 `LD Vx, [I]` -/
  | loadRegs (x : RegIx)
  deriving DecidableEq, Repr

/-- The encoding formats (30_encoding.md R72). -/
inductive Format where
  /-- no operand -/
  | z
  /-- a 12-bit address -/
  | a
  /-- a register and a byte -/
  | xb
  /-- two registers -/
  | xy
  /-- draw: two registers and a height -/
  | xyn
  /-- a register and a function byte -/
  | xf
  deriving DecidableEq, Repr

/-- The format of each instruction (30_encoding.md R72). -/
def Instr.format : Instr → Format
  | .cls | .ret => .z
  | .jp _ | .call _ | .ldI _ | .jpV0 _ => .a
  | .seByte _ _ | .sneByte _ _ | .ldByte _ _ | .addByte _ _ | .rnd _ _ => .xb
  | .seReg _ _ | .sneReg _ _ | .ldReg _ _ | .orReg _ _ | .andReg _ _ | .xorReg _ _ | .addReg _ _ | .subReg _ _
  | .shr _ _ | .subnReg _ _ | .shl _ _ => .xy
  | .drw _ _ _ => .xyn
  | .skp _ | .sknp _ | .ldVxDt _ | .ldDtVx _ | .ldStVx _ | .ldVxK _ | .addI _ | .ldF _ | .ldB _ | .storeRegs _
  | .loadRegs _ => .xf

/-- Operands as plain numbers, a field an instruction does not have being 0. -/
structure Operands where
  x : Nat := 0
  y : Nat := 0
  n : Nat := 0
  nn : Nat := 0
  nnn : Nat := 0
  deriving DecidableEq, Repr

/-- The operands of an instruction, as numbers. -/
def Instr.operands : Instr → Operands
  | .cls => {}
  | .ret => {}
  | .jp nnn => { nnn := nnn.toNat }
  | .call nnn => { nnn := nnn.toNat }
  | .seByte x nn => { x := x.toNat, nn := nn.toNat }
  | .sneByte x nn => { x := x.toNat, nn := nn.toNat }
  | .seReg x y => { x := x.toNat, y := y.toNat }
  | .sneReg x y => { x := x.toNat, y := y.toNat }
  | .ldByte x nn => { x := x.toNat, nn := nn.toNat }
  | .addByte x nn => { x := x.toNat, nn := nn.toNat }
  | .ldReg x y => { x := x.toNat, y := y.toNat }
  | .orReg x y => { x := x.toNat, y := y.toNat }
  | .andReg x y => { x := x.toNat, y := y.toNat }
  | .xorReg x y => { x := x.toNat, y := y.toNat }
  | .addReg x y => { x := x.toNat, y := y.toNat }
  | .subReg x y => { x := x.toNat, y := y.toNat }
  | .shr x y => { x := x.toNat, y := y.toNat }
  | .subnReg x y => { x := x.toNat, y := y.toNat }
  | .shl x y => { x := x.toNat, y := y.toNat }
  | .ldI nnn => { nnn := nnn.toNat }
  | .jpV0 nnn => { nnn := nnn.toNat }
  | .rnd x nn => { x := x.toNat, nn := nn.toNat }
  | .drw x y n => { x := x.toNat, y := y.toNat, n := n.toNat }
  | .skp x => { x := x.toNat }
  | .sknp x => { x := x.toNat }
  | .ldVxDt x => { x := x.toNat }
  | .ldDtVx x => { x := x.toNat }
  | .ldStVx x => { x := x.toNat }
  | .ldVxK x => { x := x.toNat }
  | .addI x => { x := x.toNat }
  | .ldF x => { x := x.toNat }
  | .ldB x => { x := x.toNat }
  | .storeRegs x => { x := x.toNat }
  | .loadRegs x => { x := x.toNat }

end Sys2Proof
end

