-- ==== Sys2Proof/WellFormed.lean ====
section
/-! DEFINITION. What the spec admits: operands that fit the fields of their format (30_encoding.md R71, R72) and
configurations a CORE can be constructed with (00_scope.md R5). -/

namespace Sys2Proof

/-- Each operand fits the field its format gives it, and a field the format does not have is 0 (30_encoding.md R71, R72). -/
def Format.operandsFit : Format → Operands → Bool
  | .z, o => o = {}
  | .a, o => decide (o.nnn < 0x1000) && o = { nnn := o.nnn }
  | .xb, o => decide (o.x < 16) && decide (o.nn < 0x100) && o = { x := o.x, nn := o.nn }
  | .xy, o => decide (o.x < 16) && decide (o.y < 16) && o = { x := o.x, y := o.y }
  | .xyn, o => decide (o.x < 16) && decide (o.y < 16) && decide (o.n < 16) && o = { x := o.x, y := o.y, n := o.n }
  | .xf, o => decide (o.x < 16) && o = { x := o.x }

/-- An instruction is well formed when its operands fit its format. The operand types already carry the ranges, so
every term of `Instr` passes (Laws/PerInstr.lean); what the check refuses is a tuple of numbers that no instruction holds. -/
def Instr.WellFormed (i : Instr) : Bool :=
  i.format.operandsFit i.operands

/-- The configurations the rules are stated for: `W ≥ 1`, `H ≥ 1`, `STACK_DEPTH ≥ 1` (00_scope.md R5). Every quirk record
is legal (10_state.md R41). -/
def Config.WellFormed (c : Config) : Bool :=
  decide (1 ≤ c.width) && decide (1 ≤ c.height) && decide (1 ≤ c.stackDepth)

end Sys2Proof
end

