-- ==== Sys2Proof/Decode.lean ====
section
/-! DEFINITION. The decoder and the encoder, both written from 30_encoding.md R71, R72, R74, R75. -/

namespace Sys2Proof

/-! ### Fields (30_encoding.md R71) -/

/-- `F`, bits 15:12. -/
def Word.family (w : Word) : Nibble := w.extractLsb' 12 4

/-- `x`, bits 11:8. -/
def Word.x (w : Word) : Nibble := w.extractLsb' 8 4

/-- `y`, bits 7:4. -/
def Word.y (w : Word) : Nibble := w.extractLsb' 4 4

/-- `n`, bits 3:0. -/
def Word.n (w : Word) : Nibble := w.extractLsb' 0 4

/-- `nn`, bits 7:0. -/
def Word.nn (w : Word) : Byte := w.extractLsb' 0 8

/-- `nnn`, bits 11:0. -/
def Word.nnn (w : Word) : Addr := w.extractLsb' 0 12

/-- Bits 15:8, the byte at the lower address (20_memory.md R56). -/
def Word.highByte (w : Word) : Byte := w.extractLsb' 8 8

/-- Bits 7:0, the byte at the higher address (20_memory.md R56). -/
def Word.lowByte (w : Word) : Byte := w.extractLsb' 0 8

/-- Two bytes as a big-endian word, the first in bits 15:8 (20_memory.md R56). -/
def Word.ofBytes (first second : Byte) : Word := first ++ second

/-! ### The decoder (30_encoding.md R75) -/

/-- Family 0, by the low byte; the `x` nibble is not examined (R76). -/
def decodeFamily0 (w : Word) : Option Instr :=
  match Word.nn w with
  | 0xE0#8 => some .cls
  | 0xEE#8 => some .ret
  | _ => none

/-- Family 8, by the low nibble. -/
def decodeFamily8 (w : Word) : Option Instr :=
  match Word.n w with
  | 0x0#4 => some (.ldReg (Word.x w) (Word.y w))
  | 0x1#4 => some (.orReg (Word.x w) (Word.y w))
  | 0x2#4 => some (.andReg (Word.x w) (Word.y w))
  | 0x3#4 => some (.xorReg (Word.x w) (Word.y w))
  | 0x4#4 => some (.addReg (Word.x w) (Word.y w))
  | 0x5#4 => some (.subReg (Word.x w) (Word.y w))
  | 0x6#4 => some (.shr (Word.x w) (Word.y w))
  | 0x7#4 => some (.subnReg (Word.x w) (Word.y w))
  | 0xE#4 => some (.shl (Word.x w) (Word.y w))
  | _ => none

/-- Family E, by the low byte. -/
def decodeFamilyE (w : Word) : Option Instr :=
  match Word.nn w with
  | 0x9E#8 => some (.skp (Word.x w))
  | 0xA1#8 => some (.sknp (Word.x w))
  | _ => none

/-- Family F, by the low byte. -/
def decodeFamilyF (w : Word) : Option Instr :=
  match Word.nn w with
  | 0x07#8 => some (.ldVxDt (Word.x w))
  | 0x0A#8 => some (.ldVxK (Word.x w))
  | 0x15#8 => some (.ldDtVx (Word.x w))
  | 0x18#8 => some (.ldStVx (Word.x w))
  | 0x1E#8 => some (.addI (Word.x w))
  | 0x29#8 => some (.ldF (Word.x w))
  | 0x33#8 => some (.ldB (Word.x w))
  | 0x55#8 => some (.storeRegs (Word.x w))
  | 0x65#8 => some (.loadRegs (Word.x w))
  | _ => none

/-- The decoder of 30_encoding.md R75, total on the 65536 words: `none` is an unknown opcode (R78). The nibbles `n` of
families 5 and 9 are not examined (R76). -/
def decode (w : Word) : Option Instr :=
  match Word.family w with
  | 0x0#4 => decodeFamily0 w
  | 0x1#4 => some (.jp (Word.nnn w))
  | 0x2#4 => some (.call (Word.nnn w))
  | 0x3#4 => some (.seByte (Word.x w) (Word.nn w))
  | 0x4#4 => some (.sneByte (Word.x w) (Word.nn w))
  | 0x5#4 => some (.seReg (Word.x w) (Word.y w))
  | 0x6#4 => some (.ldByte (Word.x w) (Word.nn w))
  | 0x7#4 => some (.addByte (Word.x w) (Word.nn w))
  | 0x8#4 => decodeFamily8 w
  | 0x9#4 => some (.sneReg (Word.x w) (Word.y w))
  | 0xA#4 => some (.ldI (Word.nnn w))
  | 0xB#4 => some (.jpV0 (Word.nnn w))
  | 0xC#4 => some (.rnd (Word.x w) (Word.nn w))
  | 0xD#4 => some (.drw (Word.x w) (Word.y w) (Word.n w))
  | 0xE#4 => decodeFamilyE w
  | _ => decodeFamilyF w  -- 0xF, the one family left

/-- Why a byte sequence gives no instruction. -/
inductive DecodeReject where
  /-- The word selects no instruction (30_encoding.md R78): the diagnostic `UnknownOpcode(w)`. -/
  | unknownOpcode (w : Word)
  /-- Fewer than two bytes: there is no word (30_encoding.md R70). -/
  | truncated
  deriving DecidableEq, Repr

/-- The instruction at the head of a byte sequence, with the bytes after it: every instruction is two bytes, big-endian
(30_encoding.md R70). Total, rejecting by name. -/
def decodeBytes : List Byte → Except DecodeReject (Instr × List Byte)
  | first :: second :: rest =>
    match decode (Word.ofBytes first second) with
    | some i => .ok (i, rest)
    | none => .error (.unknownOpcode (Word.ofBytes first second))
  | _ => .error .truncated

/-- The instruction whose bits are `w`, numbered as spec/opcode_table.json numbers them (bit 0 the least significant bit
of the one 16-bit word), every bit from `nbits` up being 0, laid out as the hardware stores it. -/
def decodeTableWord (nbits w : Nat) : Option Instr :=
  let word := BitVec.ofNat 16 (w % 2 ^ nbits)
  match decodeBytes [Word.highByte word, Word.lowByte word] with
  | .ok (i, _) => some i
  | .error _ => none

/-! ### The encoder: the canonical words of 30_encoding.md R74, R77 -/

/-- Format A (30_encoding.md R72). -/
def wordA (family : Nibble) (nnn : Addr) : Word := family ++ nnn

/-- Formats XB and XF (30_encoding.md R72). -/
def wordXB (family : Nibble) (x : Nibble) (low : Byte) : Word := family ++ x ++ low

/-- Formats XY and XYN (30_encoding.md R72). -/
def wordXYN (family : Nibble) (x y n : Nibble) : Word := family ++ x ++ y ++ n

/-- The word an assembler emits for an instruction (30_encoding.md R74, R77). -/
def encode : Instr → Word
  | .cls => 0x00E0#16
  | .ret => 0x00EE#16
  | .jp nnn => wordA 0x1 nnn
  | .call nnn => wordA 0x2 nnn
  | .seByte x nn => wordXB 0x3 x nn
  | .sneByte x nn => wordXB 0x4 x nn
  | .seReg x y => wordXYN 0x5 x y 0x0
  | .sneReg x y => wordXYN 0x9 x y 0x0
  | .ldByte x nn => wordXB 0x6 x nn
  | .addByte x nn => wordXB 0x7 x nn
  | .ldReg x y => wordXYN 0x8 x y 0x0
  | .orReg x y => wordXYN 0x8 x y 0x1
  | .andReg x y => wordXYN 0x8 x y 0x2
  | .xorReg x y => wordXYN 0x8 x y 0x3
  | .addReg x y => wordXYN 0x8 x y 0x4
  | .subReg x y => wordXYN 0x8 x y 0x5
  | .shr x y => wordXYN 0x8 x y 0x6
  | .subnReg x y => wordXYN 0x8 x y 0x7
  | .shl x y => wordXYN 0x8 x y 0xE
  | .ldI nnn => wordA 0xA nnn
  | .jpV0 nnn => wordA 0xB nnn
  | .rnd x nn => wordXB 0xC x nn
  | .drw x y n => wordXYN 0xD x y n
  | .skp x => wordXB 0xE x 0x9E
  | .sknp x => wordXB 0xE x 0xA1
  | .ldVxDt x => wordXB 0xF x 0x07
  | .ldDtVx x => wordXB 0xF x 0x15
  | .ldStVx x => wordXB 0xF x 0x18
  | .ldVxK x => wordXB 0xF x 0x0A
  | .addI x => wordXB 0xF x 0x1E
  | .ldF x => wordXB 0xF x 0x29
  | .ldB x => wordXB 0xF x 0x33
  | .storeRegs x => wordXB 0xF x 0x55
  | .loadRegs x => wordXB 0xF x 0x65

/-! ### The opcode map as data (30_encoding.md R74) -/

/-- A row of the opcode map: a word selects it when `w AND mask = pattern` (30_encoding.md R74). -/
structure OpcodeRow where
  mnemonic : String
  pattern : Word
  mask : Word
  deriving DecidableEq, Repr

/-- A word selects a row (30_encoding.md R74). -/
def OpcodeRow.selects (row : OpcodeRow) (w : Word) : Bool := w &&& row.mask == row.pattern

/-- The row of an instruction: the mnemonic of spec/opcode_table.json, `match` and `mask` of 30_encoding.md R74. -/
def Instr.row : Instr → OpcodeRow
  | .cls => ⟨"CLS", 0x00E0, 0xF0FF⟩
  | .ret => ⟨"RET", 0x00EE, 0xF0FF⟩
  | .jp _ => ⟨"JP_nnn", 0x1000, 0xF000⟩
  | .call _ => ⟨"CALL_nnn", 0x2000, 0xF000⟩
  | .seByte _ _ => ⟨"SE_Vx__nn", 0x3000, 0xF000⟩
  | .sneByte _ _ => ⟨"SNE_Vx__nn", 0x4000, 0xF000⟩
  | .seReg _ _ => ⟨"SE_Vx__Vy", 0x5000, 0xF000⟩
  | .sneReg _ _ => ⟨"SNE_Vx__Vy", 0x9000, 0xF000⟩
  | .ldByte _ _ => ⟨"LD_Vx__nn", 0x6000, 0xF000⟩
  | .addByte _ _ => ⟨"ADD_Vx__nn", 0x7000, 0xF000⟩
  | .ldReg _ _ => ⟨"LD_Vx__Vy", 0x8000, 0xF00F⟩
  | .orReg _ _ => ⟨"OR_Vx__Vy", 0x8001, 0xF00F⟩
  | .andReg _ _ => ⟨"AND_Vx__Vy", 0x8002, 0xF00F⟩
  | .xorReg _ _ => ⟨"XOR_Vx__Vy", 0x8003, 0xF00F⟩
  | .addReg _ _ => ⟨"ADD_Vx__Vy", 0x8004, 0xF00F⟩
  | .subReg _ _ => ⟨"SUB_Vx__Vy", 0x8005, 0xF00F⟩
  | .shr _ _ => ⟨"SHR_Vx__Vy", 0x8006, 0xF00F⟩
  | .subnReg _ _ => ⟨"SUBN_Vx__Vy", 0x8007, 0xF00F⟩
  | .shl _ _ => ⟨"SHL_Vx__Vy", 0x800E, 0xF00F⟩
  | .ldI _ => ⟨"LD_I__nnn", 0xA000, 0xF000⟩
  | .jpV0 _ => ⟨"JP_V0__nnn", 0xB000, 0xF000⟩
  | .rnd _ _ => ⟨"RND_Vx__nn", 0xC000, 0xF000⟩
  | .drw _ _ _ => ⟨"DRW_Vx__Vy__n", 0xD000, 0xF000⟩
  | .skp _ => ⟨"SKP_Vx", 0xE09E, 0xF0FF⟩
  | .sknp _ => ⟨"SKNP_Vx", 0xE0A1, 0xF0FF⟩
  | .ldVxDt _ => ⟨"LD_Vx__DT", 0xF007, 0xF0FF⟩
  | .ldDtVx _ => ⟨"LD_DT__Vx", 0xF015, 0xF0FF⟩
  | .ldStVx _ => ⟨"LD_ST__Vx", 0xF018, 0xF0FF⟩
  | .ldVxK _ => ⟨"LD_Vx__K", 0xF00A, 0xF0FF⟩
  | .addI _ => ⟨"ADD_I__Vx", 0xF01E, 0xF0FF⟩
  | .ldF _ => ⟨"LD_F__Vx", 0xF029, 0xF0FF⟩
  | .ldB _ => ⟨"LD_B__Vx", 0xF033, 0xF0FF⟩
  | .storeRegs _ => ⟨"LD__I___Vx", 0xF055, 0xF0FF⟩
  | .loadRegs _ => ⟨"LD_Vx___I", 0xF065, 0xF0FF⟩

/-- The opcode map of 30_encoding.md R74, its rows in the document's order. -/
def opcodeMap : List OpcodeRow :=
  [Instr.cls.row, Instr.ret.row, (Instr.jp 0).row, (Instr.call 0).row, (Instr.seByte 0 0).row, (Instr.sneByte 0 0).row,
    (Instr.seReg 0 0).row, (Instr.sneReg 0 0).row, (Instr.ldByte 0 0).row, (Instr.addByte 0 0).row] ++
  [(Instr.ldReg 0 0).row, (Instr.orReg 0 0).row, (Instr.andReg 0 0).row, (Instr.xorReg 0 0).row, (Instr.addReg 0 0).row,
    (Instr.subReg 0 0).row, (Instr.shr 0 0).row, (Instr.subnReg 0 0).row, (Instr.shl 0 0).row] ++
  [(Instr.ldI 0).row, (Instr.jpV0 0).row, (Instr.rnd 0 0).row, (Instr.drw 0 0 0).row, (Instr.skp 0).row,
    (Instr.sknp 0).row] ++
  [(Instr.ldVxDt 0).row, (Instr.ldDtVx 0).row, (Instr.ldStVx 0).row, (Instr.ldVxK 0).row, (Instr.addI 0).row,
    (Instr.ldF 0).row, (Instr.ldB 0).row, (Instr.storeRegs 0).row, (Instr.loadRegs 0).row]

end Sys2Proof
end

