-- ==== Sys2Proof/Machine/State.lean ====
section
/-! DEFINITION. The complete state of the CORE (10_state.md R44) as plain data, its value after construction
(70_reset_and_hazards.md R170), and the reasons a step could stop. -/

namespace Sys2Proof.Machine

/-- The faults an instruction can raise (60_exceptions.md R146). -/
inductive FaultKind where
  /-- 2nnn: the stack already holds STACK_DEPTH entries. -/
  | stackOverflow
  /-- 00EE: the stack is empty. -/
  | stackUnderflow
  /-- Ex9E, ExA1: Vx ≥ 16 and `P_KEY_OOR = fault`. -/
  | keyIndexOutOfRange
  /-- Fx33, Fx55: a write address below 0x050 and `P_FONT_WRITE = fault`. -/
  | fontWrite
  deriving DecidableEq, Repr

/-- A fault record `(kind, addr, word)` (10_state.md R39). -/
structure FaultRecord where
  kind : FaultKind
  addr : Addr
  word : Word
  deriving DecidableEq, Repr

/-- The status a step returns to the host (60_exceptions.md R145). -/
inductive Status where
  /-- The instruction executed. -/
  | completed
  /-- The word selected no instruction; a no-op. -/
  | unknownOpcode (w : Word)
  /-- Fx0A found no latched key. -/
  | awaitingKey
  /-- Dxyn is waiting for a tick. -/
  | awaitingVblank
  /-- The instruction raised a fault. -/
  | fault (f : FaultRecord)
  /-- The CORE was already halted by this fault record. -/
  | halted (f : FaultRecord)
  deriving DecidableEq, Repr

/-- The state of the CORE. Its fields are the rows of the table of 10_state.md R44, and two of the model's own: `status`
and `draws`. -/
structure State where
  /-- The configuration and the font cells 0x000 to 0x04F, fixed at construction (10_state.md R41, R42; 20_memory.md R52). -/
  cfg : Config
  /-- V0 to VF (10_state.md R20). -/
  v : Vector Byte 16
  /-- The index register, 16-bit storage (10_state.md R27). -/
  i : BitVec 16
  /-- The program counter (10_state.md R24). -/
  pc : Addr
  /-- The return-address stack, the entry pushed last at the head; `SP` is its length (10_state.md R29). -/
  stack : List Addr
  /-- The delay timer (10_state.md R34). -/
  dt : Byte
  /-- The sound timer (10_state.md R34, R35). -/
  st : Byte
  /-- The cells 0x050 to 0xFFF, in canonical form: addresses rising, no zero byte listed (20_memory.md R50, R55). -/
  mem : List Host.Cell
  /-- The display buffer: `H` rows of `W` pixels (10_state.md R33). -/
  display : List (List Bool)
  /-- The key-state vector, a host input (10_state.md R36). -/
  keys : Vector Bool 16
  /-- The key latch, a host input (10_state.md R37). -/
  latch : Option Key
  /-- Whether a tick has occurred since the last draw (10_state.md R38). -/
  vblankSeen : Bool
  /-- The halt record (10_state.md R39). -/
  halt : Option FaultRecord
  /-- The model's own: the status the last step returned to the host, none before the first step (60_exceptions.md R145;
  notes/assumptions/4.md). -/
  status : Option Status
  /-- The model's own: how many random bytes have been drawn (42_alu.md R122; notes/assumptions/3.md). -/
  draws : Nat
  deriving DecidableEq, Repr

/-- The reasons a step could answer `Outcome.fault`: none. A fault of the CORE (`FaultKind`) is taken, as a next state
with the halt record written (60_exceptions.md R147, R150), and no rule gives a step that has no next state
(notes/assumptions/5.md). safe: nothing raises it. -/
inductive Fault where
  deriving DecidableEq, Repr

/-- The reasons a step could answer `Outcome.refused`. -/
inductive Refusal where
  /-- An instruction without a meaning, raised only by an arm of `exec` that rejects by name; every arm has a meaning, so
  nothing raises it. safe: a refused step proves nothing about the hardware. -/
  | notModelled (mnemonic : String)
  deriving DecidableEq, Repr

/-- The CORE right after `construct` (70_reset_and_hazards.md R170; the values of 10_state.md R44). Zero registers, memory
and timers, a clear display and `vblank_seen = 0` are the spec's decisions D6, D8, D15 (notes/assumptions/9.md); `status`
and `draws` are the model's (notes/assumptions/3.md, 4.md). -/
def State.construct (cfg : Config) : State where
  cfg := cfg
  v := Vector.replicate 16 0#8
  i := 0#16
  pc := 0x200#12
  stack := []
  dt := 0#8
  st := 0#8
  mem := []
  display := List.replicate cfg.height (List.replicate cfg.width false)
  keys := Vector.replicate 16 false
  latch := none
  vblankSeen := false
  halt := none
  status := none
  draws := 0

/-- This hardware right after reset: constructed with the parameters of 00_scope.md R5, no ROM loaded. -/
def State.reset : State :=
  State.construct Config.hardware

end Sys2Proof.Machine
end

