-- ==== Sys2Proof/Machine/Ops.lean ====
section
/-! DEFINITION. The named operations of the CORE: the primitives of 00_scope.md R8 to R12 over registers, memory, stack,
display and timers; taking a fault, blocking, completing; and the pieces of the step cycle (30_encoding.md R83 to R86). -/

namespace Sys2Proof.Machine

/-! ### Memory as data: cells in rising order, no cell equal to what an unlisted address reads as -/

/-- The byte listed at an address. -/
def Memory.lookup : List Host.Cell → Nat → Option Byte
  | [], _ => none
  | (b, u) :: rest, a => if b = a then some u else Memory.lookup rest a

/-- Puts a cell at its place, replacing the one at that address. -/
def Memory.insert : List Host.Cell → Nat → Byte → List Host.Cell
  | [], a, x => [(a, x)]
  | (b, u) :: rest, a, x =>
    if a < b then (a, x) :: (b, u) :: rest
    else if a = b then (a, x) :: rest
    else (b, u) :: Memory.insert rest a x

/-- Writes a byte, keeping the canonical form: a zero byte is what an unlisted address reads as, so its cell goes. -/
def Memory.write (m : List Host.Cell) (a : Nat) (x : Byte) : List Host.Cell :=
  if x = 0#8 then m.filter (fun c => c.1 ≠ a) else Memory.insert m a x

/-- The canonical form of the cells 0x050 to 0xFFF: addresses strictly rising, in the range, no zero byte listed. -/
abbrev Memory.wf (m : List Host.Cell) : Prop :=
  m.Pairwise (fun c d => c.1 < d.1) ∧ ∀ c ∈ m, 0x050 ≤ c.1 ∧ c.1 < 0x1000 ∧ c.2 ≠ 0#8

/-- What an address that memory does not list reads as: the font byte below 0x050 (20_memory.md R52, R53), 0 from there on
(20_memory.md R55, the spec's decision D6). -/
def Memory.unlisted (font : Vector Byte 80) (a : Nat) : Byte :=
  if h : a < 80 then font[a] else 0#8

/-- The address is one of the font cells 0x000 to 0x04F (20_memory.md R52). -/
def fontCell (a : Addr) : Bool := decide (a.toNat < 80)

/-- `MemRead(a, 1)` (20_memory.md R52); the address is modulo 4096 by its type (R51). -/
def State.readByte (s : State) (a : Addr) : Byte :=
  if fontCell a then Memory.unlisted s.cfg.font a.toNat
  else (Memory.lookup s.mem a.toNat).getD (Memory.unlisted s.cfg.font a.toNat)

/-- `MemRead(a, 2)`, big-endian (00_scope.md R9, 20_memory.md R56). -/
def State.readWord (s : State) (a : Addr) : Word :=
  Word.ofBytes (s.readByte a) (s.readByte (a + 1#12))

/-! ### Writing the state -/

/-- The memory list replaced. -/
def State.setMem (s : State) (m : List Host.Cell) : State := { s with mem := m }

/-- `MemWrite(a, 1, x)`: a font cell keeps its value (20_memory.md R52). -/
def State.writeByte (s : State) (a : Addr) (x : Byte) : State :=
  if fontCell a then s else s.setMem (Memory.write s.mem a.toNat x)

/-- Bytes written at ascending addresses from `a`, modulo 4096 (20_memory.md R58). -/
def State.writeBytes (s : State) (a : Addr) : List Byte → State
  | [] => s
  | x :: rest => (s.writeByte a x).writeBytes (a + 1#12) rest

/-- Reads general register `x` (10_state.md R20). -/
def State.getV (s : State) (x : RegIx) : Byte := s.v[x.toNat]'(x.isLt)

/-- Writes general register `x` (10_state.md R21). -/
def State.setV (s : State) (x : RegIx) (b : Byte) : State := { s with v := s.v.set x.toNat b x.isLt }

/-- Writes the index register modulo 4096 (10_state.md R27). -/
def State.setI (s : State) (n : BitVec 16) : State := { s with i := n % 0x1000#16 }

/-- The effective address of the index register, masked to 12 bits (10_state.md R27). -/
def State.iAddr (s : State) : Addr := s.i.setWidth 12

/-- Writes the program counter; modulo 4096 by its type (10_state.md R24). -/
def State.setPc (s : State) (a : Addr) : State := { s with pc := a }

/-- The return-address stack replaced. -/
def State.setStack (s : State) (l : List Addr) : State := { s with stack := l }

/-- Writes the delay timer (10_state.md R34). -/
def State.setDt (s : State) (b : Byte) : State := { s with dt := b }

/-- Writes the sound timer (10_state.md R34). -/
def State.setSt (s : State) (b : Byte) : State := { s with st := b }

/-- The display buffer replaced. -/
def State.setDisplay (s : State) (d : List (List Bool)) : State := { s with display := d }

/-- Writes the key-state vector (10_state.md R36). -/
def State.setKeys (s : State) (k : Vector Bool 16) : State := { s with keys := k }

/-- Writes the key latch (10_state.md R37). -/
def State.setLatch (s : State) (k : Option Key) : State := { s with latch := k }

/-- Writes the vblank flag (10_state.md R38). -/
def State.setVblankSeen (s : State) (b : Bool) : State := { s with vblankSeen := b }

/-- Writes the halt record (10_state.md R39). -/
def State.setHalt (s : State) (h : Option FaultRecord) : State := { s with halt := h }

/-- Reports a status to the host (60_exceptions.md R145). -/
def State.setStatus (s : State) (r : Status) : State := { s with status := some r }

/-- Advances the count of random draws (42_alu.md R122). -/
def State.setDraws (s : State) (n : Nat) : State := { s with draws := n }

/-! ### The return-address stack (10_state.md R29 to R32) -/

/-- `SP`, the number of entries held. -/
def State.sp (s : State) : Nat := s.stack.length

/-- `Push(a)`; `none` is `StackOverflow`, raised when the stack holds STACK_DEPTH entries (10_state.md R31). -/
def State.push (s : State) (a : Addr) : Option State :=
  if s.cfg.stackDepth ≤ s.sp then none else some (s.setStack (a :: s.stack))

/-- `Pop()`: the entry pushed last and the state without it; `none` is `StackUnderflow` (10_state.md R32). -/
def State.pop (s : State) : Option (Addr × State) :=
  match s.stack with
  | [] => none
  | a :: rest => some (a, s.setStack rest)

/-! ### The display buffer (10_state.md R33) -/

/-- `Pix(c, r)` of a display buffer; outside the grid there is no pixel, and this says clear. -/
def Display.pix (d : List (List Bool)) (c r : Nat) : Bool := (d.getD r []).getD c false

/-- `Pix(c, r) <- b`; outside the grid nothing is written. -/
def Display.setPix (d : List (List Bool)) (c r : Nat) (b : Bool) : List (List Bool) :=
  d.modify r (fun row => row.set c b)

/-- The display buffer with every pixel clear (40_display.md R90). -/
def Display.blank (w h : Nat) : List (List Bool) := List.replicate h (List.replicate w false)

/-- `Pix(c, r)`: column `c`, row `r` (00_scope.md R11). -/
def State.pix (s : State) (c r : Nat) : Bool := Display.pix s.display c r

/-! ### The timers (60_exceptions.md R155) -/

/-- One timer's part of a tick: down by 1 if nonzero, never below 0. -/
def countDown (b : Byte) : Byte := if b = 0#8 then 0#8 else b - 1#8

/-- `Tick()` (60_exceptions.md R155). -/
def State.tick (s : State) : State :=
  ((s.setDt (countDown s.dt)).setSt (countDown s.st)).setVblankSeen true

/-! ### The random source (42_alu.md R122) -/

/-- `RandomByte()`: the next byte of the free random source, and the state with the draw counted. -/
def State.randomByte (s : State) : Byte × State :=
  (Config.randomByte s.draws, s.setDraws (s.draws + 1))

/-! ### How an instruction ends

While an instruction's own effect runs, `pc` holds its address plus 2 (10_state.md R25, 00_scope.md R14). -/

/-- `a`, the address of the instruction being executed (00_scope.md R14). -/
def State.instrAddr (s : State) : Addr := s.pc - 2#12

/-- The instruction executed: `status Completed` (60_exceptions.md R145). -/
def State.complete (s : State) : State := s.setStatus .completed

/-- The instruction is blocked: `PC` rolls back to it, nothing else changes, the status is reported (30_encoding.md R84). -/
def State.block (s : State) (r : Status) : State := (s.setPc s.instrAddr).setStatus r

/-- The fault record of the instruction being executed: its kind, its address and its word (10_state.md R39). The word is
read again at `a`: nothing has been written since the fetch (60_exceptions.md R147; notes/assumptions/6.md). DEDUCED, safe. -/
def State.faultRecord (s : State) (kind : FaultKind) : FaultRecord :=
  ⟨kind, s.instrAddr, s.readWord s.instrAddr⟩

/-- TAKING A FAULT (30_encoding.md R83, 60_exceptions.md R147, R150): `PC <- a`, the halt record is written, the status
is `Fault(E, a, w)`, nothing else changes. There is no handler, no saved context and no return (R150, R151): the CORE halts
until the next load (Machine/HostInterface.lean). -/
def State.raise (s : State) (kind : FaultKind) : State :=
  ((s.setHalt (some (s.faultRecord kind))).setStatus (.fault (s.faultRecord kind))).setPc s.instrAddr

/-- A skip: one instruction word further if the condition holds (41_control_flow.md R107). -/
def State.skipIf (s : State) (c : Bool) : State := if c then s.setPc (s.pc + 2#12) else s

/-! ### The step cycle (30_encoding.md R83 to R86) -/

/-- The word fetched at `PC` (30_encoding.md R83, 20_memory.md R56). -/
def State.fetchWord (s : State) : Word := s.readWord s.pc

/-- The advance of the fetch: `PC <- a + 2` (30_encoding.md R83, 10_state.md R24). -/
def State.advance (s : State) : State := s.setPc (s.pc + 2#12)

/-- The end of every step: `latch <- none` (30_encoding.md R85). -/
def State.endStep (s : State) : State := s.setLatch none

/-- An unknown opcode: a no-op with the diagnostic `UnknownOpcode(w)` (30_encoding.md R78). -/
def State.unknownOpcode (s : State) (w : Word) : State := s.setStatus (.unknownOpcode w)

/-- A step of a halted CORE: it executes nothing and returns `Halted(f)` (30_encoding.md R86). -/
def State.reportHalted (s : State) (f : FaultRecord) : State := s.setStatus (.halted f)

/-- A state function applied under `next`; a fault or a refusal stands. -/
def mapNext (g : State → State) : Host.Outcome State Fault Refusal → Host.Outcome State Fault Refusal
  | .next s => .next (g s)
  | .fault r => .fault r
  | .refused r => .refused r

/-- A byte put at an address whatever stands there, a font cell's byte being the configuration's: how `withFetchWord`
stands for the load of a program (notes/assumptions/7.md). No instruction does this. -/
def State.pokeByte (s : State) (a : Addr) (x : Byte) : State :=
  if h : a.toNat < 80 then { s with cfg := { s.cfg with font := s.cfg.font.set a.toNat x h } }
  else s.writeByte a x

/-- A word put at `PC` as the fetch reads it, and the halt record cleared, since a halted CORE fetches nothing
(30_encoding.md R86). -/
def State.placeWord (s : State) (w : Word) : State :=
  ((s.pokeByte s.pc (Word.highByte w)).pokeByte (s.pc + 1#12) (Word.lowByte w)).setHalt none

end Sys2Proof.Machine
end

