-- ==== Sys2Proof/Machine/Flags.lean ====
section
/-! DEFINITION. Every computation of the flag VF (10_state.md R22), and writing it last (00_scope.md R13). -/

namespace Sys2Proof.Machine

/-- A flag as the byte VF holds. -/
def flagByte (b : Bool) : Byte := if b then 1#8 else 0#8

/-- Carry of an addition: the unmasked sum is above 255 (42_alu.md R116). -/
def carryFlag (a b : Byte) : Byte := flagByte (decide (255 < a.toNat + b.toNat))

/-- No borrow of `a - b` (42_alu.md R117, R119). -/
def noBorrowFlag (a b : Byte) : Byte := flagByte (decide (b.toNat ≤ a.toNat))

/-- The bit a right shift moves out, bit 0 (42_alu.md R118). -/
def lowBitFlag (a : Byte) : Byte := a &&& 1#8

/-- The bit a left shift moves out, bit 7 (42_alu.md R120). -/
def highBitFlag (a : Byte) : Byte := flagByte (a.getLsbD 7)

/-- The destination is written first and the flag last, so that VF ends as the flag when it is also the destination
(00_scope.md R13). -/
def State.setVThenFlag (s : State) (x : RegIx) (result flag : Byte) : State :=
  (s.setV x result).setV vf flag

/-- The destination of 8xy1, 8xy2, 8xy3: VF := 0 after it when `vf_reset` is on (42_alu.md R113). -/
def State.setVThenReset (s : State) (x : RegIx) (result : Byte) : State :=
  if s.cfg.quirks.vfReset then s.setVThenFlag x result 0#8 else s.setV x result

end Sys2Proof.Machine
end

