-- ==== Sys2Proof/Machine/Operands.lean ====
section
/-! DEFINITION. Every operand form: index plus offset addresses, register ranges, the shift source, the jump offset, BCD
digits, key numbers. -/

namespace Sys2Proof.Machine

/-- The address `I + k`, modulo 4096 (43_index_memory.md R126, 20_memory.md R51). -/
def State.indexed (s : State) (k : Nat) : Addr := s.iAddr + BitVec.ofNat 12 k

/-- Some of the `count` addresses from `I` is a font cell and `P_FONT_WRITE = fault`: a store to them raises `FontWrite`
before any of its writes (20_memory.md R52). -/
def State.storeFaults (s : State) (count : Nat) : Bool :=
  decide (s.cfg.fontWrite = .fault) && (List.range count).any (fun k => fontCell (s.indexed k))

/-- V0 to Vx in order, what Fx55 stores (43_index_memory.md R132). -/
def State.registersTo (s : State) (x : RegIx) : List Byte :=
  (List.range (x.toNat + 1)).map (fun k => s.getV (BitVec.ofNat 4 k))

/-- V0 to Vx loaded from ascending addresses from `I` (43_index_memory.md R133). -/
def State.loadRegistersTo (s : State) (x : RegIx) : State :=
  (List.range (x.toNat + 1)).foldl (fun t k => t.setV (BitVec.ofNat 4 k) (s.readByte (s.indexed k))) s

/-- `I <- i0 + x + 1` when `memory_increment` is on, else `I` unchanged (43_index_memory.md R132, R133). -/
def State.stepIndex (s : State) (x : RegIx) : State :=
  if s.cfg.quirks.memoryIncrement then s.setI (s.i + x.setWidth 16 + 1#16) else s

/-- The decimal digits of a byte, hundreds first (43_index_memory.md R131). -/
def bcdDigits (b : Byte) : List Byte :=
  [BitVec.ofNat 8 (b.toNat / 100), BitVec.ofNat 8 (b.toNat / 10 % 10), BitVec.ofNat 8 (b.toNat % 10)]

/-- The source of 8xy6 and 8xyE: Vx when `shifting` is on, else Vy (42_alu.md R118). -/
def State.shiftSource (s : State) (x y : RegIx) : Byte :=
  if s.cfg.quirks.shifting then s.getV x else s.getV y

/-- The register whose value Bnnn adds: Vx with x = nnn[11:8] when `jumping` is on, else V0 (41_control_flow.md R108). -/
def State.jumpRegister (s : State) (nnn : Addr) : RegIx :=
  if s.cfg.quirks.jumping then nnn.extractLsb' 8 4 else 0#4

/-- `KeyIndex(b)`: the key a register value names; `none` is `KeyIndexOutOfRange` (44_timers_keys.md R137). -/
def keyIndex (policy : KeyPolicy) (b : Byte) : Option Key :=
  if b.toNat ≤ 15 then some (b.setWidth 4)
  else
    match policy with
    | .fault => none
    | .lowNibble => some (b.setWidth 4)

/-- Key `k` is held (10_state.md R36). -/
def State.keyHeld (s : State) (k : Key) : Bool := s.keys[k.toNat]'(k.isLt)

end Sys2Proof.Machine
end

