-- ==== Sys2Proof/Machine/Alu.lean ====
section
/-! DEFINITION. Register loads and arithmetic (42_alu.md). All values are unsigned bytes, every result modulo 256 (R123). -/

namespace Sys2Proof.Machine

/-- 6xnn `LD Vx, nn` (42_alu.md R110). -/
def execLdByte (x : RegIx) (nn : Byte) (s : State) : Host.Outcome State Fault Refusal :=
  .next (s.setV x nn).complete

/-- 7xnn `ADD Vx, nn`: no carry is recorded (42_alu.md R111). -/
def execAddByte (x : RegIx) (nn : Byte) (s : State) : Host.Outcome State Fault Refusal :=
  .next (s.setV x (s.getV x + nn)).complete

/-- 8xy0 `LD Vx, Vy` (42_alu.md R112). -/
def execLdReg (x y : RegIx) (s : State) : Host.Outcome State Fault Refusal :=
  .next (s.setV x (s.getV y)).complete

/-- 8xy1 `OR Vx, Vy` (42_alu.md R113). -/
def execOrReg (x y : RegIx) (s : State) : Host.Outcome State Fault Refusal :=
  .next (s.setVThenReset x (s.getV x ||| s.getV y)).complete

/-- 8xy2 `AND Vx, Vy` (42_alu.md R114). -/
def execAndReg (x y : RegIx) (s : State) : Host.Outcome State Fault Refusal :=
  .next (s.setVThenReset x (s.getV x &&& s.getV y)).complete

/-- 8xy3 `XOR Vx, Vy` (42_alu.md R115). -/
def execXorReg (x y : RegIx) (s : State) : Host.Outcome State Fault Refusal :=
  .next (s.setVThenReset x (s.getV x ^^^ s.getV y)).complete

/-- 8xy4 `ADD Vx, Vy`: VF := carry (42_alu.md R116). -/
def execAddReg (x y : RegIx) (s : State) : Host.Outcome State Fault Refusal :=
  .next (s.setVThenFlag x (s.getV x + s.getV y) (carryFlag (s.getV x) (s.getV y))).complete

/-- 8xy5 `SUB Vx, Vy`: VF := no borrow (42_alu.md R117). -/
def execSubReg (x y : RegIx) (s : State) : Host.Outcome State Fault Refusal :=
  .next (s.setVThenFlag x (s.getV x - s.getV y) (noBorrowFlag (s.getV x) (s.getV y))).complete

/-- 8xy6 `SHR Vx, Vy`: VF := the bit shifted out (42_alu.md R118). -/
def execShr (x y : RegIx) (s : State) : Host.Outcome State Fault Refusal :=
  .next (s.setVThenFlag x (s.shiftSource x y >>> 1) (lowBitFlag (s.shiftSource x y))).complete

/-- 8xy7 `SUBN Vx, Vy`: VF := no borrow (42_alu.md R119). -/
def execSubnReg (x y : RegIx) (s : State) : Host.Outcome State Fault Refusal :=
  .next (s.setVThenFlag x (s.getV y - s.getV x) (noBorrowFlag (s.getV y) (s.getV x))).complete

/-- 8xyE `SHL Vx, Vy`: VF := the bit shifted out (42_alu.md R120). -/
def execShl (x y : RegIx) (s : State) : Host.Outcome State Fault Refusal :=
  .next (s.setVThenFlag x (s.shiftSource x y <<< 1) (highBitFlag (s.shiftSource x y))).complete

/-- Cxnn `RND Vx, nn`: a free random byte AND nn (42_alu.md R121, R122). -/
def execRnd (x : RegIx) (nn : Byte) (s : State) : Host.Outcome State Fault Refusal :=
  .next (s.randomByte.2.setV x (s.randomByte.1 &&& nn)).complete

end Sys2Proof.Machine
end

