-- ==== Sys2Proof/Machine/Control.lean ====
section
/-! DEFINITION. Control transfer and skips (41_control_flow.md). -/

namespace Sys2Proof.Machine

/-- 00EE `RET`: the popped address into PC; an empty stack raises `StackUnderflow` (41_control_flow.md R100). -/
def execRet (s : State) : Host.Outcome State Fault Refusal :=
  match s.pop with
  | none => .next (s.raise .stackUnderflow)
  | some (a, t) => .next (t.setPc a).complete

/-- 1nnn `JP nnn` (41_control_flow.md R101). -/
def execJp (nnn : Addr) (s : State) : Host.Outcome State Fault Refusal :=
  .next (s.setPc nnn).complete

/-- 2nnn `CALL nnn`: pushes the address of the next word; a full stack raises `StackOverflow` (41_control_flow.md R102). -/
def execCall (nnn : Addr) (s : State) : Host.Outcome State Fault Refusal :=
  match s.push s.pc with
  | none => .next (s.raise .stackOverflow)
  | some t => .next (t.setPc nnn).complete

/-- 3xnn `SE Vx, nn` (41_control_flow.md R103). -/
def execSeByte (x : RegIx) (nn : Byte) (s : State) : Host.Outcome State Fault Refusal :=
  .next (s.skipIf (s.getV x = nn)).complete

/-- 4xnn `SNE Vx, nn` (41_control_flow.md R104). -/
def execSneByte (x : RegIx) (nn : Byte) (s : State) : Host.Outcome State Fault Refusal :=
  .next (s.skipIf (s.getV x ≠ nn)).complete

/-- 5xy0 `SE Vx, Vy` (41_control_flow.md R105). -/
def execSeReg (x y : RegIx) (s : State) : Host.Outcome State Fault Refusal :=
  .next (s.skipIf (s.getV x = s.getV y)).complete

/-- 9xy0 `SNE Vx, Vy` (41_control_flow.md R106). -/
def execSneReg (x y : RegIx) (s : State) : Host.Outcome State Fault Refusal :=
  .next (s.skipIf (s.getV x ≠ s.getV y)).complete

/-- Bnnn `JP V0, nnn`: nnn plus V0, or plus Vx under `jumping`, modulo 4096 (41_control_flow.md R108). -/
def execJpV0 (nnn : Addr) (s : State) : Host.Outcome State Fault Refusal :=
  .next (s.setPc (nnn + (s.getV (s.jumpRegister nnn)).setWidth 12)).complete

end Sys2Proof.Machine
end

