-- ==== Sys2Proof/Machine/Display.lean ====
section
/-! DEFINITION. The display instructions: CLS and DRW (40_display.md). -/

namespace Sys2Proof.Machine

/-- 00E0 `CLS`: every pixel clear; it neither waits nor touches `vblank_seen` (40_display.md R90). -/
def execCls (s : State) : Host.Outcome State Fault Refusal :=
  .next (s.setDisplay (Display.blank s.cfg.width s.cfg.height)).complete

/-- The pixel a sprite bit lands on: with `clipping` none outside the display, else wrapped modulo `W` and `H`
(40_display.md R94). -/
def spriteTarget (cfg : Config) (px py : Nat) : Option (Nat × Nat) :=
  if cfg.quirks.clipping then
    if cfg.width ≤ px ∨ cfg.height ≤ py then none else some (px, py)
  else some (px % cfg.width, py % cfg.height)

/-- A pixel XOR-toggled, with the collision flag: set once a toggle turns a set pixel clear (40_display.md R96). -/
def toggle (p : List (List Bool) × Bool) (c r : Nat) : List (List Bool) × Bool :=
  (Display.setPix p.1 c r (!Display.pix p.1 c r), p.2 || Display.pix p.1 c r)

/-- One bit of a sprite row: column `c` is bit 7 - c of the byte (40_display.md R95); a 0 bit draws nothing (R94). -/
def drawBit (cfg : Config) (vx vy : Byte) (row : Byte) (r c : Nat) (p : List (List Bool) × Bool) :
    List (List Bool) × Bool :=
  if row.getLsbD (7 - c) then
    match spriteTarget cfg (vx.toNat + c) (vy.toNat + r) with
    | none => p
    | some (px, py) => toggle p px py
  else p

/-- One sprite row, column 0 first (40_display.md R96). -/
def drawRow (cfg : Config) (vx vy : Byte) (row : Byte) (r : Nat) (p : List (List Bool) × Bool) :
    List (List Bool) × Bool :=
  (List.range 8).foldl (fun q c => drawBit cfg vx vy row r c q) p

/-- The sprite of `n` rows read from memory at `I`, drawn at the column and row two registers hold, row 0 first
(40_display.md R91, R94, R96): the display buffer after it and the collision flag. -/
def State.drawSprite (s : State) (x y : RegIx) (n : Nibble) : List (List Bool) × Bool :=
  (List.range n.toNat).foldl
    (fun p r => drawRow s.cfg (s.getV x) (s.getV y) (s.readByte (s.indexed r)) r p) (s.display, false)

/-- The body of Dxyn: `vblank_seen <- 0`, the sprite, VF := collision (40_display.md R91, R93, R96). DEDUCED: R97 (d)'s
sentence on VF after a second draw contradicts R91 and R96 where every hit pixel was set before the first; VF follows
R91 and R96 (notes/assumptions/17.md). unsafe: hardware that kept R97 (d) there would end with VF = 1. -/
def State.drawBody (s : State) (x y : RegIx) (n : Nibble) : State :=
  (((s.setVblankSeen false).setDisplay (s.drawSprite x y n).1).setV vf (flagByte (s.drawSprite x y n).2)).complete

/-- The gate of Dxyn is shut: `display_wait` is on and no tick has occurred since the last draw (40_display.md R92). -/
def State.drawGated (s : State) : Bool := s.cfg.quirks.displayWait && !s.vblankSeen

/-- Dxyn `DRW Vx, Vy, n` (40_display.md R91): gated, it waits, or ticks the timers inline and draws under
`display_wait_faker` (R92); a tick changes no operand of the body. -/
def execDrw (x y : RegIx) (n : Nibble) (s : State) : Host.Outcome State Fault Refusal :=
  if s.drawGated then
    if s.cfg.quirks.displayWaitFaker then .next (s.tick.drawBody x y n)
    else .next (s.block .awaitingVblank)
  else .next (s.drawBody x y n)

end Sys2Proof.Machine
end

