-- ==== Sys2Proof/Machine/IndexMemory.lean ====
section
/-! DEFINITION. The index register and memory instructions (43_index_memory.md). -/

namespace Sys2Proof.Machine

/-- Annn `LD I, nnn` (43_index_memory.md R125). -/
def execLdI (nnn : Addr) (s : State) : Host.Outcome State Fault Refusal :=
  .next (s.setI (nnn.setWidth 16)).complete

/-- Fx1E `ADD I, Vx`: modulo 4096, no flag (43_index_memory.md R129). -/
def execAddI (x : RegIx) (s : State) : Host.Outcome State Fault Refusal :=
  .next (s.setI (s.i + (s.getV x).setWidth 16)).complete

/-- Fx29 `LD F, Vx`: the glyph address Vx · 5, the whole of Vx (43_index_memory.md R130). -/
def execLdF (x : RegIx) (s : State) : Host.Outcome State Fault Refusal :=
  .next (s.setI ((s.getV x).setWidth 16 * 5#16)).complete

/-- Fx33 `LD B, Vx`: the three BCD digits at I, I+1, I+2 (43_index_memory.md R131). -/
def execLdB (x : RegIx) (s : State) : Host.Outcome State Fault Refusal :=
  if s.storeFaults 3 then .next (s.raise .fontWrite)
  else .next (s.writeBytes s.iAddr (bcdDigits (s.getV x))).complete

/-- Fx55 `LD [I], Vx`: V0 to Vx stored from I on (43_index_memory.md R132). -/
def execStoreRegs (x : RegIx) (s : State) : Host.Outcome State Fault Refusal :=
  if s.storeFaults (x.toNat + 1) then .next (s.raise .fontWrite)
  else .next ((s.writeBytes s.iAddr (s.registersTo x)).stepIndex x).complete

/-- Fx65 `LD Vx, [I]`: V0 to Vx loaded from I on (43_index_memory.md R133). -/
def execLoadRegs (x : RegIx) (s : State) : Host.Outcome State Fault Refusal :=
  .next ((s.loadRegistersTo x).stepIndex x).complete

end Sys2Proof.Machine
end

