-- ==== Sys2Proof/Machine/KeysTimers.lean ====
section
/-! DEFINITION. The key and timer instructions (44_timers_keys.md). -/

namespace Sys2Proof.Machine

/-- Ex9E `SKP Vx`: skips if key Vx is held; a key number of 16 or more raises `KeyIndexOutOfRange` on this hardware
(44_timers_keys.md R135, R137). -/
def execSkp (x : RegIx) (s : State) : Host.Outcome State Fault Refusal :=
  match keyIndex s.cfg.keyOutOfRange (s.getV x) with
  | none => .next (s.raise .keyIndexOutOfRange)
  | some k => .next (s.skipIf (s.keyHeld k)).complete

/-- ExA1 `SKNP Vx`: skips if key Vx is not held (44_timers_keys.md R136, R137). -/
def execSknp (x : RegIx) (s : State) : Host.Outcome State Fault Refusal :=
  match keyIndex s.cfg.keyOutOfRange (s.getV x) with
  | none => .next (s.raise .keyIndexOutOfRange)
  | some k => .next (s.skipIf (!s.keyHeld k)).complete

/-- Fx07 `LD Vx, DT` (44_timers_keys.md R138). -/
def execLdVxDt (x : RegIx) (s : State) : Host.Outcome State Fault Refusal :=
  .next (s.setV x s.dt).complete

/-- Fx15 `LD DT, Vx` (44_timers_keys.md R139). -/
def execLdDtVx (x : RegIx) (s : State) : Host.Outcome State Fault Refusal :=
  .next (s.setDt (s.getV x)).complete

/-- Fx18 `LD ST, Vx` (44_timers_keys.md R140). -/
def execLdStVx (x : RegIx) (s : State) : Host.Outcome State Fault Refusal :=
  .next (s.setSt (s.getV x)).complete

/-- Fx0A `LD Vx, K`: consumes the latched key edge, or waits for one (44_timers_keys.md R141). -/
def execLdVxK (x : RegIx) (s : State) : Host.Outcome State Fault Refusal :=
  match s.latch with
  | some k => .next ((s.setV x (k.setWidth 8)).setLatch none).complete
  | none => .next (s.block .awaitingKey)

end Sys2Proof.Machine
end

