-- ==== Sys2Proof/Machine/Step.lean ====
section
/-! DEFINITION. One step of the CORE (30_encoding.md R83), and a state with an instruction placed where the step fetches. -/

namespace Sys2Proof.Machine

/-- One step (30_encoding.md R83): a halted CORE reports its fault record (R86); otherwise the word at `PC` is fetched,
`PC` advances by 2, and the instruction executes, an unknown word being a no-op (R78). Every step ends by clearing the
latch (R85). -/
def step (s : State) : Host.Outcome State Fault Refusal :=
  match s.halt with
  | some f => .next (s.reportHalted f).endStep
  | none =>
    match decode s.fetchWord with
    | some i => mapNext State.endStep (exec i s.advance)
    | none => .next (s.advance.unknownOpcode s.fetchWord).endStep

/-- `s` with the instruction whose bits are `w` (numbered as spec/opcode_table.json numbers them, the bits from `nbits` up
being 0) stored where `step` fetches its next instruction (notes/assumptions/7.md). -/
def State.withFetchWord (s : State) (nbits w : Nat) : State :=
  s.placeWord (BitVec.ofNat 16 (w % 2 ^ nbits))

end Sys2Proof.Machine
end

