-- ==== Sys2Proof/Machine/HostInterface.lean ====
section
/-! DEFINITION. The operations the host calls between steps (60_exceptions.md R160): load, tick, set_keys, latch_key,
snapshot; and the fault codes. `construct` is `State.construct`; `step` is `Machine.step`. -/

namespace Sys2Proof.Machine

/-- The number of a fault kind, for a host that wants one; the numbering is the spec's own (60_exceptions.md R146). -/
def FaultKind.code : FaultKind → Nat
  | .stackOverflow => 1
  | .stackUnderflow => 2
  | .keyIndexOutOfRange => 3
  | .fontWrite => 4

/-- `ROM_MAX` (00_scope.md R5): the bytes from 0x200 to 0xFFF. -/
def romMax : Nat := 3584

/-- What load gives back (70_reset_and_hazards.md R172, R173). -/
inductive LoadResult where
  | ok
  | romTooLarge
  deriving DecidableEq, Repr

/-- The cells of a ROM from an address on, zero bytes left unlisted. -/
def romCells : Nat → List Byte → List Host.Cell
  | _, [] => []
  | a, x :: rest => if x = 0#8 then romCells (a + 1) rest else (a, x) :: romCells (a + 1) rest

/-- Memory after a load: 0x200 to 0xFFF zeroed, then the ROM copied from 0x200; below 0x200 unchanged
(70_reset_and_hazards.md R172). -/
def Memory.loaded (m : List Host.Cell) (rom : List Byte) : List Host.Cell :=
  m.filter (fun c => c.1 < 0x200) ++ romCells 0x200 rom

/-- The state after a successful load (70_reset_and_hazards.md R172): font, 0x050 to 0x1FF, display, keys and configuration
unchanged, and the model's `status` and `draws`, which load does not concern (notes/assumptions/8.md). -/
def State.loaded (s : State) (rom : List Byte) : State :=
  { s with
    mem := Memory.loaded s.mem rom
    v := Vector.replicate 16 0#8
    i := 0#16
    pc := 0x200#12
    stack := []
    dt := 0#8
    st := 0#8
    vblankSeen := false
    latch := none
    halt := none }

/-- `load(rom)` (70_reset_and_hazards.md R172, R173): a ROM above `romMax` bytes fails and changes nothing. It may be
called on a halted CORE, and is the one way out of a halt (60_exceptions.md R151). -/
def load (rom : List Byte) (s : State) : LoadResult × State :=
  if romMax < rom.length then (.romTooLarge, s) else (.ok, s.loaded rom)

/-- `tick()` (60_exceptions.md R155); it has its normal effect on a halted CORE (R157). -/
def tick (s : State) : State := s.tick

/-- `set_keys(k)` (60_exceptions.md R161). -/
def setKeys (k : Vector Bool 16) (s : State) : State := s.setKeys k

/-- `latch_key(k)`, replacing a key already latched (60_exceptions.md R162). -/
def latchKey (k : Key) (s : State) : State := s.setLatch (some k)

/-- What the host reads between steps (10_state.md R43). -/
structure Snapshot where
  display : List (List Bool)
  v : Vector Byte 16
  i : BitVec 16
  pc : Addr
  /-- The return addresses in push order. -/
  stack : List Addr
  /-- The stack's storage: each entry the low byte of the address, then the high byte (10_state.md R29). -/
  stackBytes : List Byte
  sp : Nat
  dt : Byte
  st : Byte
  deriving DecidableEq, Repr

/-- A return address as the stack stores it, low byte first (10_state.md R29). -/
def frameBytes (a : Addr) : List Byte := [a.setWidth 8, (a.extractLsb' 8 4).setWidth 8]

/-- `snapshot()`: a read that changes nothing (60_exceptions.md R163, 10_state.md R43). -/
def snapshot (s : State) : Snapshot where
  display := s.display
  v := s.v
  i := s.i
  pc := s.pc
  stack := s.stack.reverse
  stackBytes := s.stack.reverse.flatMap frameBytes
  sp := s.sp
  dt := s.dt
  st := s.st

end Sys2Proof.Machine
end

