-- ==== Sys2Proof/Machine/Driver.lean ====
section
/-! DEFINITION. The host's calls as data, one at a time, in any order and number (60_exceptions.md R160, R164). -/

namespace Sys2Proof.Machine

/-- A call of the host on a CORE (60_exceptions.md R160). -/
inductive HostOp where
  | load (rom : List Byte)
  | step
  | tick
  | setKeys (k : Vector Bool 16)
  | latchKey (k : Key)
  | snapshot
  deriving DecidableEq, Repr

/-- The CORE after one call of the host (60_exceptions.md R160). -/
def hostCall (op : HostOp) (s : State) : Host.Outcome State Fault Refusal :=
  match op with
  | .load rom => .next (Machine.load rom s).2
  | .step => Machine.step s
  | .tick => .next (Machine.tick s)
  | .setKeys k => .next (Machine.setKeys k s)
  | .latchKey k => .next (Machine.latchKey k s)
  | .snapshot => .next s

/-- What a call gives back to the host (60_exceptions.md R160). -/
inductive HostReply where
  | nothing
  | loaded (r : LoadResult)
  | status (r : Option Status)
  | snapshot (view : Snapshot)
  deriving DecidableEq, Repr

/-- The reply to a call (60_exceptions.md R160): load's result, the status of the step (R145), the snapshot. -/
def hostReply (op : HostOp) (s : State) : HostReply :=
  match op with
  | .load rom => .loaded (Machine.load rom s).1
  | .step =>
    match Machine.step s with
    | .next t => .status t.status
    | _ => .status none
  | .snapshot => .snapshot (Machine.snapshot s)
  | .tick | .setKeys _ | .latchKey _ => .nothing

/-- A sequence of host calls, in order. -/
def hostRun : List HostOp → State → Host.Outcome State Fault Refusal
  | [], s => .next s
  | op :: rest, s =>
    match hostCall op s with
    | .next t => hostRun rest t
    | .fault r => .fault r
    | .refused r => .refused r

end Sys2Proof.Machine
end

