-- ==== Sys2Proof/Safety.lean ====
section
/-! DEFINITION. The terms claims use: the invariant of the state, the parts of the state a claim can say are unchanged,
the pixels a sprite covers, and how a run ends (70_reset_and_hazards.md R181). -/

namespace Sys2Proof.Machine

/-! ### The invariant -/

/-- The display buffer has `H` rows of `W` pixels (10_state.md R33). -/
def State.displayFits (s : State) : Prop :=
  s.display.length = s.cfg.height ∧ ∀ row ∈ s.display, row.length = s.cfg.width

/-- What every state of a run meets: memory in canonical form, `I` below 0x1000 (10_state.md R27), at most STACK_DEPTH
return addresses (R29), a display of `H` rows of `W` pixels (R33). -/
structure State.Inv (s : State) : Prop where
  memory : Memory.wf s.mem
  index : s.i.toNat < 0x1000
  stack : s.sp ≤ s.cfg.stackDepth
  display : s.displayFits

/-! ### What an instruction leaves unchanged -/

/-- A part of the state: a register, a byte of memory, a pixel, or a field. `PC` and the reported status are stated apart. -/
inductive Part where
  | reg (x : RegIx)
  | byte (a : Addr)
  | pixel (c r : Nat)
  | index
  | stack
  | delayTimer
  | soundTimer
  | keys
  | latch
  | vblankSeen
  | halt
  | draws
  | config
  deriving DecidableEq, Repr

/-- The part is the same in two states; memory and display through the model's reads of one byte and one pixel. -/
def Part.Same (p : Part) (s t : State) : Prop :=
  match p with
  | .reg x => t.getV x = s.getV x
  | .byte a => t.readByte a = s.readByte a
  | .pixel c r => t.pix c r = s.pix c r
  | .index => t.i = s.i
  | .stack => t.stack = s.stack
  | .delayTimer => t.dt = s.dt
  | .soundTimer => t.st = s.st
  | .keys => t.keys = s.keys
  | .latch => t.latch = s.latch
  | .vblankSeen => t.vblankSeen = s.vblankSeen
  | .halt => t.halt = s.halt
  | .draws => t.draws = s.draws
  | .config => t.cfg = s.cfg

/-- Every part but the listed ones is the same in `t` as in `s`. -/
def SameExcept (written : List Part) (s t : State) : Prop := ∀ p : Part, p ∉ written → p.Same s t

/-- Every part outside a set, given by a predicate, is the same in `t` as in `s`. -/
def SameOutside (written : Part → Prop) (s t : State) : Prop := ∀ p : Part, ¬ written p → p.Same s t

/-- The instruction executed from `s` ended in `t` with `status Completed`, writing no part but the listed ones. -/
def CompletedExcept (written : List Part) (s t : State) : Prop :=
  t.status = some .completed ∧ SameExcept written s t

/-- The instruction executed from `s` took the fault `kind` (60_exceptions.md R147): the halt record and the status name
the kind, the instruction's address `a = pc - 2` and its word, `PC` is `a`, and nothing else changed. -/
def TookFault (kind : FaultKind) (s t : State) : Prop :=
  t.halt = some ⟨kind, s.pc - 2#12, s.readWord (s.pc - 2#12)⟩ ∧
    t.status = some (.fault ⟨kind, s.pc - 2#12, s.readWord (s.pc - 2#12)⟩) ∧ t.pc = s.pc - 2#12 ∧ SameExcept [.halt] s t

/-- The instruction executed from `s` is blocked with the status `r` (30_encoding.md R84): `PC` is its own address again
and nothing else changed. -/
def Blocked (r : Status) (s t : State) : Prop :=
  t.status = some r ∧ t.pc = s.pc - 2#12 ∧ SameExcept [] s t

/-- Instructions executed one after the other, the first that answers no next state ending it. -/
def execAll : List Instr → State → Host.Outcome State Fault Refusal
  | [], s => .next s
  | i :: rest, s =>
    match exec i s with
    | .next t => execAll rest t
    | .fault r => .fault r
    | .refused r => .refused r

/-- The bytes a store of `count` bytes at `I` names (20_memory.md R58). -/
def State.storedParts (s : State) (count : Nat) : List Part :=
  (List.range count).map (fun k => Part.byte (s.indexed k))

/-- Registers V0 to Vx (43_index_memory.md R133). -/
def regsTo (x : RegIx) : List Part :=
  (List.range (x.toNat + 1)).map (fun k => Part.reg (BitVec.ofNat 4 k))

/-! ### Sprites -/

/-- The bits of a sprite of `n` rows, as (row, column), in the order they are drawn (40_display.md R96). -/
def spriteBits (n : Nibble) : List (Nat × Nat) :=
  (List.range n.toNat).flatMap (fun row => (List.range 8).map (fun col => (row, col)))

/-- How many set bits of the sprite that Dxyn with `x`, `y`, `n` draws land on pixel `(c, r)` (40_display.md R94, R95). -/
def State.spriteHits (s : State) (x y : RegIx) (n : Nibble) (c r : Nat) : Nat :=
  (spriteBits n).countP fun b =>
    (s.readByte (s.indexed b.1)).getLsbD (7 - b.2) &&
      decide (spriteTarget s.cfg ((s.getV x).toNat + b.2) ((s.getV y).toNat + b.1) = some (c, r))

/-! ### How a run ends (70_reset_and_hazards.md R181) -/

/-- A step from here fetches a jump to its own address: the run ends well, with this as its final state. -/
def State.endsWell (s : State) : Bool :=
  decide (s.halt = none) && decide (decode s.fetchWord = some (.jp s.pc))

/-- The last step returned `Fault(E, a, w)`: the run ended badly at that step. Right after a step this is R181's bad end. What
it says later is the model's choice (DESIGN CHOICE, notes/assumptions/18.md): it reads the status of the last step, so it
stays true through the host's other calls, a load included, until the next step. unsafe: after such a load a new run that
has not ended still reads as ended badly. -/
def State.endedBadly (s : State) : Bool :=
  match s.status with
  | some (.fault _) => true
  | _ => false

/-- A safe step: it answers a next state and raises no fault. -/
def SafeStep (s : State) : Prop :=
  ∃ t, step s = .next t ∧ t.endedBadly = false

end Sys2Proof.Machine
end

