-- ==== Sys2Proof/Certificates/Slice0/Obligations.lean ====
section
/-! DEFINITION. The statements for the provers, from the spec's numbered rules. `exec i s` runs with `pc` already advanced:
in these statements `s.pc` is the rules' `pc = a + 2` (00_scope.md R14), and `s.pc - 2` is `a`. -/

open Sys2Proof Sys2Proof.Machine

/-! ### Encoding (30_encoding.md) -/

/-- Every well-formed instruction's canonical word decodes to it: no field of an encoding is dropped (R71, R74, R77). -/
def Obligations.DecodeOfEncodeIsIdentity : Prop :=
  ∀ i : Instr, i.WellFormed = true → decode (encode i) = some i

/-- The decoder of R75 selects exactly the row whose match and mask the word meets (R74), and no word meets two rows. Rests
on the spec's decision D10 (the masks follow the decoder). -/
def Obligations.DecoderSelectsOpcodeRow : Prop :=
  (∀ (w : Word) (row : OpcodeRow), row ∈ opcodeMap →
    (row.selects w = true ↔ ∃ i, decode w = some i ∧ i.row = row)) ∧
  ∀ (w : Word) (row row' : OpcodeRow), row ∈ opcodeMap → row' ∈ opcodeMap →
    row.selects w = true → row'.selects w = true → row = row'

/-- The unknown words are exactly those R78 lists. Rests on the spec's decision D29 (0nnn is unknown). -/
def Obligations.UnknownWordsAreThoseListed : Prop :=
  ∀ w : Word, decode w = none ↔
    (Word.family w = 0x0#4 ∧ Word.nn w ≠ 0xE0#8 ∧ Word.nn w ≠ 0xEE#8) ∨
    (Word.family w = 0x8#4 ∧ Word.n w ∈ [0x8#4, 0x9#4, 0xA#4, 0xB#4, 0xC#4, 0xD#4, 0xF#4]) ∨
    (Word.family w = 0xE#4 ∧ Word.nn w ≠ 0x9E#8 ∧ Word.nn w ≠ 0xA1#8) ∨
    (Word.family w = 0xF#4 ∧ Word.nn w ∉
      [0x07#8, 0x0A#8, 0x15#8, 0x18#8, 0x1E#8, 0x29#8, 0x33#8, 0x55#8, 0x65#8])

/-- Words that are not canonical run as the canonical word with the same fields (R76): the `x` nibble of 00E0 and 00EE and
the `n` nibble of 5xy0 and 9xy0 are not examined. Rests on the spec's decision D10. -/
def Obligations.NonCanonicalWordsDecode : Prop :=
  (∀ x : Nibble, decode (0x0#4 ++ x ++ 0xE0#8) = some .cls ∧ decode (0x0#4 ++ x ++ 0xEE#8) = some .ret) ∧
  ∀ x y n : Nibble, decode (0x5#4 ++ x ++ y ++ n) = some (.seReg x y) ∧
    decode (0x9#4 ++ x ++ y ++ n) = some (.sneReg x y)

/-- A few words written out from the encodings of R74 decode to the instructions they stand for. -/
def Obligations.SampleWordsDecode : Prop :=
  decode 0b0000_0000_1110_0000 = some .cls ∧ decode 0b0001_1010_1011_1100 = some (.jp 0xABC) ∧
  decode 0b0111_1010_0000_0010 = some (.addByte 0xA 0x02) ∧ decode 0b1000_0001_0010_1110 = some (.shl 0x1 0x2) ∧
  decode 0b1010_0010_0000_1010 = some (.ldI 0x20A) ∧ decode 0b1101_0001_0010_0101 = some (.drw 0x1 0x2 0x5) ∧
  decode 0b1110_0001_1010_0001 = some (.sknp 0x1) ∧ decode 0b1111_0010_0110_0101 = some (.loadRegs 0x2)

/-! ### The step cycle (30_encoding.md R83 to R86; 60_exceptions.md) -/

/-- A step runs the decoded instruction: the fetch advances `PC` by 2 and touches nothing else, the instruction executes,
and the end of the step clears the latch and touches nothing else (R83, R85). -/
def Obligations.StepRunsDecodedInstruction : Prop :=
  ∀ (s : State) (i : Instr), s.halt = none → decode s.fetchWord = some i → i.WellFormed = true →
    step s = mapNext State.endStep (exec i s.advance) ∧
    s.advance.pc = s.pc + 2#12 ∧ s.advance.status = s.status ∧ SameExcept [] s s.advance ∧
    ∀ t : State, t.endStep.latch = none ∧ t.endStep.pc = t.pc ∧ t.endStep.status = t.status ∧
      SameExcept [.latch] t t.endStep

/-- The fetched word is the byte at `PC` times 256 plus the byte at `PC + 1`, at any `PC`, the second address modulo 4096
(20_memory.md R51, R56). The wrap at 0xFFF is the spec's decision D3. -/
def Obligations.FetchIsBigEndian : Prop :=
  ∀ s : State, s.fetchWord.toNat = (s.readByte s.pc).toNat * 256 +
      (s.readByte (BitVec.ofNat 12 ((s.pc.toNat + 1) % 4096))).toNat ∧
    Word.highByte s.fetchWord = s.readByte s.pc ∧
    Word.lowByte s.fetchWord = s.readByte (BitVec.ofNat 12 ((s.pc.toNat + 1) % 4096))

/-- An unknown opcode is reported and otherwise a no-op: the advance of `PC` stands, nothing halts, nothing else changes but
the latch, which every step clears (60_exceptions.md R148, 30_encoding.md R78, R85). Rests on the spec's decisions D1, D18
and D29. -/
def Obligations.UnknownOpcodeIsNoOp : Prop :=
  ∀ s : State, s.halt = none → decode s.fetchWord = none →
    ∃ t, step s = .next t ∧ t.status = some (.unknownOpcode s.fetchWord) ∧ t.pc = s.pc + 2#12 ∧ t.halt = none ∧
      t.latch = none ∧ SameExcept [.latch] s t

/-- A halted CORE executes nothing: the step returns `Halted` with the fault record and changes nothing but the latch
(30_encoding.md R86). Rests on the spec's decision D12. -/
def Obligations.HaltedStepIsInert : Prop :=
  ∀ (s : State) (f : FaultRecord), s.halt = some f →
    ∃ t, step s = .next t ∧ t.status = some (.halted f) ∧ t.pc = s.pc ∧ t.latch = none ∧ SameExcept [.latch] s t

/-- Every step answers a next state, returns exactly one status to the host and leaves the latch clear, whatever the state
(60_exceptions.md R145, R160, 30_encoding.md R85). Rests on the spec's decisions D12, D18 and D33. -/
def Obligations.EveryStepReportsAndClearsLatch : Prop :=
  ∀ s : State, ∃ t r, step s = .next t ∧ hostCall .step s = .next t ∧ hostReply .step s = .status (some r) ∧
    t.status = some r ∧ t.latch = none

/-- The table of statuses (60_exceptions.md R145): what the reported status says of `PC` and of the halt record. Rests on
the spec's decision D12. -/
def Obligations.StatusTellsPcAndHalt : Prop :=
  ∀ (s t : State) (r : Status), step s = .next t → t.status = some r →
    match r with
    | .completed => s.halt = none ∧ t.halt = none ∧ ∃ i, decode s.fetchWord = some i
    | .unknownOpcode w => s.halt = none ∧ t.halt = none ∧ t.pc = s.pc + 2#12 ∧ w = s.fetchWord ∧ decode w = none
    | .awaitingKey => s.halt = none ∧ t.halt = none ∧ t.pc = s.pc ∧ ∃ x, decode s.fetchWord = some (.ldVxK x)
    | .awaitingVblank => s.halt = none ∧ t.halt = none ∧ t.pc = s.pc ∧ ∃ x y n, decode s.fetchWord = some (.drw x y n)
    | .fault f => s.halt = none ∧ t.halt = some f ∧ t.pc = s.pc ∧ f.addr = s.pc ∧ f.word = s.fetchWord
    | .halted f => s.halt = some f ∧ t.halt = some f ∧ t.pc = s.pc

/-- Faults are precise (60_exceptions.md R147): after a step that raises one, everything is as before the step but the halt
record, which names the fault, the address and the word, and the latch. Rests on the spec's decision D12. -/
def Obligations.FaultingStepIsPrecise : Prop :=
  ∀ (s t : State) (f : FaultRecord), step s = .next t → t.status = some (.fault f) →
    t.pc = s.pc ∧ t.halt = some ⟨f.kind, s.pc, s.fetchWord⟩ ∧ t.latch = none ∧ t.mem = s.mem ∧ t.display = s.display ∧
      SameExcept [.halt, .latch] s t

/-- Which instruction raises which fault, and when (60_exceptions.md R146). Rests on the spec's decisions D4, D12, D13. -/
def Obligations.FaultsAreThoseListed : Prop :=
  ∀ (i : Instr) (s t : State) (f : FaultRecord), exec i s = .next t → t.status = some (.fault f) →
    match f.kind with
    | .stackOverflow => (∃ nnn, i = .call nnn) ∧ s.cfg.stackDepth ≤ s.sp
    | .stackUnderflow => i = .ret ∧ s.sp = 0
    | .keyIndexOutOfRange => ∃ x, (i = .skp x ∨ i = .sknp x) ∧ 16 ≤ (s.getV x).toNat ∧ s.cfg.keyOutOfRange = .fault
    | .fontWrite => s.cfg.fontWrite = .fault ∧ ∃ x, ((i = .ldB x ∧ ∃ k, k < 3 ∧ (s.indexed k).toNat < 0x050) ∨
        (i = .storeRegs x ∧ ∃ k, k ≤ x.toNat ∧ (s.indexed k).toNat < 0x050))

/-- A blocked step changes nothing and is attempted again: `PC` is on the same word, which the next step fetches, and no
part of the state changed but the latch, which every step clears (30_encoding.md R84, R85; 40_display.md R92; 44_timers_keys.md R141). Rests on
the spec's decision D18. -/
def Obligations.BlockedStepChangesNothing : Prop :=
  ∀ s : State, s.halt = none →
    ((∃ x, decode s.fetchWord = some (.ldVxK x)) → s.latch = none →
      ∃ t, step s = .next t ∧ t.status = some .awaitingKey ∧ t.pc = s.pc ∧ t.fetchWord = s.fetchWord ∧ SameExcept [] s t) ∧
    ((∃ x y n, decode s.fetchWord = some (.drw x y n)) → s.cfg.quirks.displayWait = true → s.vblankSeen = false →
      s.cfg.quirks.displayWaitFaker = false →
      ∃ t, step s = .next t ∧ t.status = some .awaitingVblank ∧ t.pc = s.pc ∧ t.fetchWord = s.fetchWord ∧
        t.latch = none ∧ SameExcept [.latch] s t)

/-- A successful load is the only way out of a halt: no other call of the host, a load of an oversized ROM included, changes
the halt record of a halted CORE, and a load that fits clears it (10_state.md R39, 60_exceptions.md R151,
70_reset_and_hazards.md R173). Rests on the spec's decisions D12 and D27. -/
def Obligations.OnlyLoadLeavesHalt : Prop :=
  (∀ (op : HostOp) (s t : State) (f : FaultRecord), s.halt = some f →
    (∀ rom, op = .load rom → 3584 < rom.length) → hostCall op s = .next t → t.halt = some f) ∧
  ∀ (rom : List Byte) (s : State), rom.length ≤ 3584 → (load rom s).2.halt = none

/-- A key edge is seen by one step only, and only by Fx0A: a step that is not an Fx0A gives the same state whatever the
latch held (44_timers_keys.md R142, 70_reset_and_hazards.md R178). Derived by the spec from R141 and R85. -/
def Obligations.LatchReachesOnlyKeyWait : Prop :=
  ∀ (s : State) (l : Option Key), (s.halt ≠ none ∨ ∀ x, decode s.fetchWord ≠ some (.ldVxK x)) →
    step (s.setLatch l) = step s

/-- The reported status is a result, not a register: no step reads it (10_state.md R40). The field is the model's own
(notes/assumptions/4.md). -/
def Obligations.ReportedStatusIsNeverRead : Prop :=
  ∀ (s : State) (r : Option Status), step { s with status := r } = step s

/-- Where a run ends well (70_reset_and_hazards.md R181), at a jump to its own address, the step is safe and repeats
forever: it completes, changes nothing but the latch, and the next state ends well again (41_control_flow.md R101,
60_exceptions.md R168). The end of a run is the spec's decision D32. -/
def Obligations.SelfJumpRepeats : Prop :=
  ∀ s : State, s.endsWell = true → SafeStep s ∧
    ∃ t, step s = .next t ∧ t.status = some .completed ∧ t.pc = s.pc ∧ t.latch = none ∧ SameExcept [.latch] s t ∧
      t.endsWell = true

/-! ### Invariants and whole-machine rules -/

/-- From every state that meets the invariant (memory canonical, I below 0x1000, SP at most STACK_DEPTH, a display of H
rows of W pixels), a step leads to one that meets it (10_state.md R27, R29, R33; the memory form is the model's own). -/
def Obligations.StepKeepsInvariant : Prop :=
  ∀ s t : State, s.Inv → step s = .next t → t.Inv

/-- The state after construction with any configuration meets the invariant, and so does this hardware's after reset
(60_exceptions.md R160, 70_reset_and_hazards.md R170). -/
def Obligations.ResetMeetsInvariant : Prop :=
  (∀ cfg : Config, (State.construct cfg).Inv) ∧ State.reset.Inv

/-- The invariant survives every sequence of host calls, in any order (60_exceptions.md R160, R164). -/
def Obligations.HostRunKeepsInvariant : Prop :=
  ∀ (ops : List HostOp) (s t : State), s.Inv → hostRun ops s = .next t → t.Inv

/-- No sequence of host calls, steps included, changes the configuration or a byte of the font, which reads as `FONT`; and
only set_keys changes the keys (10_state.md R36, R42; 20_memory.md R52). Rests on the spec's decision D4. -/
def Obligations.ConfigurationFontAndKeysFixed : Prop :=
  ∀ (ops : List HostOp) (s t : State), hostRun ops s = .next t →
    t.cfg = s.cfg ∧
    (∀ (a : Addr) (h : a.toNat < 80), t.readByte a = s.cfg.font[a.toNat]) ∧
    ((∀ k, HostOp.setKeys k ∉ ops) → t.keys = s.keys)

/-- I is written by Annn, Fx1E, Fx29, and by Fx55 and Fx65 under `memory_increment`, and read by Dxyn, Fx1E, Fx33, Fx55,
Fx65 alone: any other instruction does the same whatever I holds (10_state.md R28). -/
def Obligations.IndexIsTouchedOnlyByListed : Prop :=
  (∀ (i : Instr) (s t : State), exec i s = .next t → t.i ≠ s.i →
    (∃ nnn, i = .ldI nnn) ∨ (∃ x, i = .addI x ∨ i = .ldF x) ∨
    (s.cfg.quirks.memoryIncrement = true ∧ ∃ x, i = .storeRegs x ∨ i = .loadRegs x)) ∧
  ∀ (i : Instr) (s : State) (n : BitVec 16),
    (∀ x y h, i ≠ .drw x y h) → (∀ x, i ≠ .addI x ∧ i ≠ .ldB x ∧ i ≠ .storeRegs x ∧ i ≠ .loadRegs x) →
    ∀ t, exec i s = .next t →
      ∃ u, exec i { s with i := n } = .next u ∧ u.pc = t.pc ∧ u.status = t.status ∧ SameExcept [.index] t u

/-- The stack is written only by 2nnn and 00EE and read only by them: any other instruction does the same whatever it
holds (10_state.md R30). -/
def Obligations.StackIsTouchedOnlyByCallAndReturn : Prop :=
  (∀ (i : Instr) (s t : State), exec i s = .next t → t.stack ≠ s.stack → i = .ret ∨ ∃ nnn, i = .call nnn) ∧
  ∀ (i : Instr) (s : State) (l : List Addr), i ≠ .ret → (∀ nnn, i ≠ .call nnn) →
    ∀ t, exec i s = .next t →
      ∃ u, exec i (s.setStack l) = .next u ∧ u.pc = t.pc ∧ u.status = t.status ∧ SameExcept [.stack] t u

/-- Only 00E0 and Dxyn change the display (10_state.md R33), and only an instruction that reaches memory changes it:
Fx33 the three bytes from I, Fx55 the x + 1 bytes from I, never a font cell (20_memory.md R50, R52, R58). Rests on the
spec's decision D4. -/
def Obligations.DisplayAndMemoryWriters : Prop :=
  (∀ (i : Instr) (s t : State), exec i s = .next t → t.display ≠ s.display → i = .cls ∨ ∃ x y n, i = .drw x y n) ∧
  ∀ (i : Instr) (s t : State) (a : Addr), exec i s = .next t → t.readByte a ≠ s.readByte a →
    0x050 ≤ a.toNat ∧ ∃ x, (i = .ldB x ∧ ∃ k, k < 3 ∧ a = s.indexed k) ∨
      (i = .storeRegs x ∧ ∃ k, k ≤ x.toNat ∧ a = s.indexed k)

/-- Which instructions change VF (10_state.md R22): the flag writers, 8xy1 to 8xy3 among them, and those whose destination
is register F. Rests on the spec's decision D11. -/
def Obligations.FlagRegisterWriters : Prop :=
  ∀ (i : Instr) (s t : State), exec i s = .next t → t.getV vf ≠ s.getV vf →
    (∃ x y, i = .addReg x y ∨ i = .subReg x y ∨ i = .subnReg x y ∨ i = .shr x y ∨ i = .shl x y) ∨
    (∃ x y n, i = .drw x y n) ∨
    (∃ x y, (s.cfg.quirks.vfReset = true ∨ x = vf) ∧ (i = .orReg x y ∨ i = .andReg x y ∨ i = .xorReg x y)) ∨
    (∃ nn, i = .ldByte vf nn ∨ i = .addByte vf nn ∨ i = .rnd vf nn) ∨ (∃ y, i = .ldReg vf y) ∨
    i = .ldVxDt vf ∨ i = .ldVxK vf ∨ i = .loadRegs vf

/-- A step moves a timer only by Fx15 or Fx18 or by the inline tick of a gated Dxyn under `display_wait_faker`, and
`vblank_seen` changes only at a Dxyn (60_exceptions.md R156, 10_state.md R38). Rests on the spec's decision D16. -/
def Obligations.TimersMoveOnlyByListed : Prop :=
  ∀ (i : Instr) (s t : State), exec i s = .next t →
    (t.dt ≠ s.dt → (∃ x, i = .ldDtVx x) ∨
      (s.cfg.quirks.displayWait = true ∧ s.cfg.quirks.displayWaitFaker = true ∧ s.vblankSeen = false ∧
        ∃ x y n, i = .drw x y n)) ∧
    (t.st ≠ s.st → (∃ x, i = .ldStVx x) ∨
      (s.cfg.quirks.displayWait = true ∧ s.cfg.quirks.displayWaitFaker = true ∧ s.vblankSeen = false ∧
        ∃ x y n, i = .drw x y n)) ∧
    (t.vblankSeen ≠ s.vblankSeen → ∃ x y n, i = .drw x y n)

/-! ### Construction, load, tick and the other host calls -/

/-- This hardware after construction (70_reset_and_hazards.md R170, 10_state.md R44): every field of the state at its value,
the parameters of 00_scope.md R5 (64 by 32 pixels, 24 return addresses, `discard`, `fault`), the quirks of 10_state.md R41
and the glyph rows of 20_memory.md R53 written out. Zero registers, memory, timers and display and a clear vblank flag are
the spec's decisions D6, D8, D15, the font its D5 (notes/assumptions/2.md), the policies its D4 and D13, the sizes its D34;
no status yet, no byte drawn, and clear pixels outside the grid are the model's choice (notes/assumptions/3.md, 4.md,
10.md). -/
def Obligations.ResetValues : Prop :=
  State.reset.pc = 0x200#12 ∧ State.reset.i = 0#16 ∧ State.reset.stack = [] ∧ State.reset.sp = 0 ∧
  State.reset.dt = 0#8 ∧ State.reset.st = 0#8 ∧
  State.reset.latch = none ∧ State.reset.vblankSeen = false ∧ State.reset.halt = none ∧
  State.reset.status = none ∧ State.reset.draws = 0 ∧
  State.reset.cfg.width = 64 ∧ State.reset.cfg.height = 32 ∧ State.reset.cfg.stackDepth = 24 ∧
  State.reset.cfg.fontWrite = .discard ∧ State.reset.cfg.keyOutOfRange = .fault ∧
  State.reset.cfg.quirks.vfReset = true ∧ State.reset.cfg.quirks.memoryIncrement = true ∧
  State.reset.cfg.quirks.displayWait = true ∧ State.reset.cfg.quirks.displayWaitFaker = false ∧
  State.reset.cfg.quirks.clipping = true ∧ State.reset.cfg.quirks.shifting = false ∧
  State.reset.cfg.quirks.jumping = false ∧
  (∀ x : RegIx, State.reset.getV x = 0#8) ∧ (∀ k : Key, State.reset.keyHeld k = false) ∧
  State.reset.displayFits ∧ (∀ c r : Nat, State.reset.pix c r = false) ∧
  ∀ a : Addr, State.reset.readByte a = List.getD
    ([0xF0, 0x90, 0x90, 0x90, 0xF0] ++ [0x20, 0x60, 0x20, 0x20, 0x70] ++
      [0xF0, 0x10, 0xF0, 0x80, 0xF0] ++ [0xF0, 0x10, 0xF0, 0x10, 0xF0] ++
      [0x90, 0x90, 0xF0, 0x10, 0x10] ++ [0xF0, 0x80, 0xF0, 0x10, 0xF0] ++
      [0xF0, 0x80, 0xF0, 0x90, 0xF0] ++ [0xF0, 0x10, 0x20, 0x40, 0x40] ++
      [0xF0, 0x90, 0xF0, 0x90, 0xF0] ++ [0xF0, 0x90, 0xF0, 0x10, 0xF0] ++
      [0xF0, 0x90, 0xF0, 0x90, 0x90] ++ [0xE0, 0x90, 0xE0, 0x90, 0xE0] ++
      [0xF0, 0x80, 0x80, 0x80, 0xF0] ++ [0xE0, 0x90, 0x90, 0x90, 0xE0] ++
      [0xF0, 0x80, 0xF0, 0x80, 0xF0] ++ [0xF0, 0x80, 0xF0, 0x80, 0x80]) a.toNat 0#8

/-- A CORE constructed with any configuration holds that configuration and is otherwise as this hardware after construction:
the font cells read as its `FONT`, the display has its `H` rows of `W` clear pixels (60_exceptions.md R160,
70_reset_and_hazards.md R170, 10_state.md R44). The zero values are the spec's decisions D6, D8, D15; no status yet, no byte
drawn, and clear pixels outside the grid are the model's choice (notes/assumptions/3.md, 4.md, 10.md). -/
def Obligations.ConstructValues : Prop :=
  ∀ cfg : Config, (State.construct cfg).cfg = cfg ∧ (State.construct cfg).pc = 0x200#12 ∧
    (State.construct cfg).i = 0#16 ∧ (State.construct cfg).stack = [] ∧ (State.construct cfg).sp = 0 ∧
    (State.construct cfg).dt = 0#8 ∧ (State.construct cfg).st = 0#8 ∧ (State.construct cfg).latch = none ∧
    (State.construct cfg).vblankSeen = false ∧ (State.construct cfg).halt = none ∧
    (State.construct cfg).status = none ∧ (State.construct cfg).draws = 0 ∧
    (∀ x : RegIx, (State.construct cfg).getV x = 0#8) ∧ (∀ k : Key, (State.construct cfg).keyHeld k = false) ∧
    (State.construct cfg).displayFits ∧ (∀ c r : Nat, (State.construct cfg).pix c r = false) ∧
    ∀ a : Addr, (State.construct cfg).readByte a = if h : a.toNat < 80 then cfg.font[a.toNat] else 0#8

/-- A tick decrements each nonzero timer by exactly 1, leaves a zero timer at 0, sets the vblank flag, and changes nothing
else (60_exceptions.md R155, R157). The vblank flag is the spec's own derivation. -/
def Obligations.TickCountsDown : Prop :=
  ∀ s : State, hostCall .tick s = .next (tick s) ∧
    (tick s).dt.toNat = s.dt.toNat - 1 ∧ (tick s).st.toNat = s.st.toNat - 1 ∧ (tick s).vblankSeen = true ∧
    (tick s).pc = s.pc ∧ SameExcept [.delayTimer, .soundTimer, .vblankSeen] s (tick s)

/-- A load that fits (70_reset_and_hazards.md R172): 0x200 on holds the ROM and then zeros, registers, I, stack, timers,
latch, vblank flag and halt record are initial, PC is 0x200; every byte below 0x200, the display, the keys and the
configuration are unchanged. Rests on the spec's decisions D6 to D9 and D15. -/
def Obligations.LoadInstallsRom : Prop :=
  ∀ (rom : List Byte) (s : State), rom.length ≤ 3584 →
    ∃ t, hostCall (.load rom) s = .next t ∧ hostReply (.load rom) s = .loaded .ok ∧
      (∀ a : Addr, t.readByte a = if a.toNat < 0x200 then s.readByte a else rom.getD (a.toNat - 0x200) 0#8) ∧
      (∀ x, t.getV x = 0#8) ∧ t.i = 0#16 ∧ t.pc = 0x200#12 ∧ t.stack = [] ∧ t.dt = 0#8 ∧ t.st = 0#8 ∧ t.vblankSeen = false ∧
      t.latch = none ∧ t.halt = none ∧ t.display = s.display ∧ t.keys = s.keys ∧ t.cfg = s.cfg

/-- A load of more than 3584 bytes fails with RomTooLarge and changes no state at all (70_reset_and_hazards.md R173). Rests
on the spec's decision D27. -/
def Obligations.LoadRefusesOversizedRom : Prop :=
  ∀ (rom : List Byte) (s : State), 3584 < rom.length →
    hostCall (.load rom) s = .next s ∧ hostReply (.load rom) s = .loaded .romTooLarge

/-- The host's inputs: set_keys replaces the key vector, latch_key the latch, a new edge replacing a latched one, and each
changes nothing else (60_exceptions.md R161, R162). The replacement is the spec's decision D31. -/
def Obligations.HostInputsReplace : Prop :=
  ∀ s : State,
    (∀ k : Vector Bool 16, ∃ t, hostCall (.setKeys k) s = .next t ∧ t.keys = k ∧ t.pc = s.pc ∧ SameExcept [.keys] s t) ∧
    ∀ k : Key, ∃ t, hostCall (.latchKey k) s = .next t ∧ t.latch = some k ∧ t.pc = s.pc ∧ SameExcept [.latch] s t

/-- A snapshot changes nothing and shows the display, the registers, I, PC, the stack in push order with SP, and the timers
(10_state.md R43, 60_exceptions.md R163); the stack's storage is the low byte of each address, then the high byte (10_state.md
R29, the spec's decision D22). -/
def Obligations.SnapshotShowsState : Prop :=
  ∀ s : State, hostCall .snapshot s = .next s ∧ hostReply .snapshot s = .snapshot (snapshot s) ∧
    (snapshot s).display = s.display ∧ (snapshot s).v = s.v ∧ (snapshot s).i = s.i ∧ (snapshot s).pc = s.pc ∧
    (snapshot s).dt = s.dt ∧ (snapshot s).st = s.st ∧ (snapshot s).sp = s.stack.length ∧
    (snapshot s).stack = s.stack.reverse ∧ (snapshot s).stackBytes.length = 2 * s.stack.length ∧
    ∀ (k : Nat) (h : k < (snapshot s).stack.length),
      ((snapshot s).stackBytes.getD (2 * k) 0#8).toNat = (snapshot s).stack[k].toNat % 256 ∧
      ((snapshot s).stackBytes.getD (2 * k + 1) 0#8).toNat = (snapshot s).stack[k].toNat / 256

/-! ### Display instructions (40_display.md) -/

/-- 00E0 clears every pixel and changes nothing else: it neither waits nor touches the vblank flag or VF (R90). The
`x` nibble is ignored by R76, the spec's decision D10; that a pixel outside the W by H grid reads clear is the model's
choice (notes/assumptions/10.md). -/
def Obligations.ClsClearsDisplay : Prop :=
  (∀ x : Nibble, decode (0x0#4 ++ x ++ 0xE0#8) = some .cls) ∧
  ∀ s : State, ∃ t, exec .cls s = .next t ∧ (∀ c r, t.pix c r = false) ∧ t.displayFits ∧ t.pc = s.pc ∧
    t.status = some .completed ∧ SameOutside (fun p => ∃ c r, p = .pixel c r) s t

/-- Dxyn with the gate open (R91, R93, R94, R95, R96), for every configuration: each pixel is toggled once per set sprite
bit that lands on it, VF is 1 exactly when some toggle turned a set pixel clear (the pixel was set and hit, or was hit
twice), the vblank flag is cleared, and nothing else changes. Sprite bits outside the display are skipped or wrap by
`spriteTarget`, stated here too. Rests on the spec's decisions D3, D11 and D17. The premise on the display is the invariant's. -/
def Obligations.DrwTogglesHitPixels : Prop :=
  (∀ (cfg : Config) (px py : Nat),
    (cfg.quirks.clipping = true → spriteTarget cfg px py =
      if px < cfg.width ∧ py < cfg.height then some (px, py) else none) ∧
    (cfg.quirks.clipping = false → spriteTarget cfg px py = some (px % cfg.width, py % cfg.height))) ∧
  ∀ (s : State) (x y : RegIx) (n : Nibble), s.displayFits →
    (s.cfg.quirks.displayWait = false ∨ s.vblankSeen = true) →
    ∃ t, exec (.drw x y n) s = .next t ∧
      (∀ c r, c < s.cfg.width → r < s.cfg.height →
        t.pix c r = (s.pix c r ^^ decide (s.spriteHits x y n c r % 2 = 1))) ∧
      ((∃ c r, c < s.cfg.width ∧ r < s.cfg.height ∧
        ((s.pix c r = true ∧ 1 ≤ s.spriteHits x y n c r) ∨ 2 ≤ s.spriteHits x y n c r)) → t.getV vf = 1#8) ∧
      ((∀ c r, c < s.cfg.width → r < s.cfg.height →
        (s.pix c r = false ∧ s.spriteHits x y n c r ≤ 1) ∨ s.spriteHits x y n c r = 0) → t.getV vf = 0#8) ∧
      t.vblankSeen = false ∧ t.displayFits ∧ t.pc = s.pc ∧ t.status = some .completed ∧
      SameOutside (fun p => p = .reg vf ∨ p = .vblankSeen ∨ ∃ c r, c < s.cfg.width ∧ r < s.cfg.height ∧ p = .pixel c r) s t

/-- The gate of Dxyn (R92): shut with the faker off, it is blocked and changes nothing; shut with the faker on, it does
what it does after one full timer tick; with `display_wait` off it never waits: it completes, and the
vblank flag makes no difference. Rests on the spec's decision D16. -/
def Obligations.DrwGate : Prop :=
  ∀ (s : State) (x y : RegIx) (n : Nibble),
    (s.cfg.quirks.displayWait = true → s.vblankSeen = false → s.cfg.quirks.displayWaitFaker = false →
      ∃ t, exec (.drw x y n) s = .next t ∧ Blocked .awaitingVblank s t) ∧
    (s.cfg.quirks.displayWait = true → s.vblankSeen = false → s.cfg.quirks.displayWaitFaker = true →
      exec (.drw x y n) s = exec (.drw x y n) (tick s) ∧
      ∃ t, exec (.drw x y n) s = .next t ∧ t.status = some .completed ∧ t.pc = s.pc ∧ t.dt = (tick s).dt ∧
        t.st = (tick s).st ∧ t.vblankSeen = false) ∧
    (s.cfg.quirks.displayWait = false →
      (∀ b, exec (.drw x y n) (s.setVblankSeen b) = exec (.drw x y n) s) ∧
      ∃ t, exec (.drw x y n) s = .next t ∧ t.status = some .completed ∧ t.pc = s.pc ∧ t.vblankSeen = false)

/-- Drawing the same sprite twice at the same place restores every pixel, and the second draw leaves VF = 1 when some set
bit of it lands on a pixel that was clear before the first (R97 (d), and the document's property E7; on a display that
already has every hit pixel set the second draw turns none clear; notes/assumptions/17.md). The second draw runs in a state with the same display,
memory, I, operand registers and configuration as the first left. Derived by the spec from R91 to R96. -/
def Obligations.DrawTwiceRestoresDisplay : Prop :=
  ∀ (s t u : State) (x y : RegIx) (n : Nibble), s.displayFits → s.drawGated = false → exec (.drw x y n) s = .next t →
    u.display = t.display → u.mem = s.mem → u.cfg = s.cfg → u.i = s.i → u.getV x = s.getV x → u.getV y = s.getV y →
    u.drawGated = false →
    ∃ w, exec (.drw x y n) u = .next w ∧
      (∀ c r, c < s.cfg.width → r < s.cfg.height → w.pix c r = s.pix c r) ∧
      ((∃ c r, c < s.cfg.width ∧ r < s.cfg.height ∧ s.pix c r = false ∧ 1 ≤ s.spriteHits x y n c r) → w.getV vf = 1#8)

/-! ### Control flow (41_control_flow.md) -/

/-- 00EE: a nonempty stack loses the entry pushed last and PC becomes it; an empty stack raises StackUnderflow (R100,
Pop of 10_state.md R32; the fault of 60_exceptions.md R147, notes/assumptions/6.md). Rests on the spec's decisions D10 and
D12. -/
def Obligations.RetPopsIntoPc : Prop :=
  (∀ x : Nibble, decode (0x0#4 ++ x ++ 0xEE#8) = some .ret) ∧
  (∀ (s : State) (a : Addr) (rest : List Addr), s.stack = a :: rest →
    ∃ t, exec .ret s = .next t ∧ t.pc = a ∧ t.stack = rest ∧ CompletedExcept [.stack] s t) ∧
  ∀ s : State, s.stack = [] → ∃ t, exec .ret s = .next t ∧ TookFault .stackUnderflow s t

/-- 1nnn: PC becomes nnn and nothing else changes; nnn may be odd (R101). -/
def Obligations.JpSetsPc : Prop :=
  ∀ (s : State) (nnn : Addr), decode (0x1#4 ++ nnn) = some (.jp nnn) ∧
    ∃ t, exec (.jp nnn) s = .next t ∧ t.pc = nnn ∧ CompletedExcept [] s t

/-- 2nnn: with room on the stack the address of the next word is pushed and PC becomes nnn; a stack of STACK_DEPTH entries
raises StackOverflow and nothing is pushed (R102, Push of 10_state.md R31; the fault of 60_exceptions.md R147,
notes/assumptions/6.md). Rests on the spec's decisions D1 and D12. -/
def Obligations.CallPushesAndJumps : Prop :=
  (∀ nnn : Addr, decode (0x2#4 ++ nnn) = some (.call nnn)) ∧
  (∀ (s : State) (nnn : Addr), s.sp < s.cfg.stackDepth →
    ∃ t, exec (.call nnn) s = .next t ∧ t.pc = nnn ∧ t.stack = s.pc :: s.stack ∧ t.sp = s.sp + 1 ∧
      CompletedExcept [.stack] s t) ∧
  ∀ (s : State) (nnn : Addr), s.sp = s.cfg.stackDepth →
    ∃ t, exec (.call nnn) s = .next t ∧ TookFault .stackOverflow s t

/-- Calls up to the stack's capacity, then as many returns: the stack is as before and PC is the address after the first
call (R109). -/
def Obligations.CallsThenReturnsUnwind : Prop :=
  ∀ (s : State) (first : Addr) (nested : List Addr), s.sp + nested.length + 1 ≤ s.cfg.stackDepth →
    ∃ t u, execAll ((first :: nested).map Instr.call) s = .next t ∧ t.sp = s.sp + nested.length + 1 ∧
      t.pc = nested.getLastD first ∧
      execAll (List.replicate (nested.length + 1) Instr.ret) t = .next u ∧ u.pc = s.pc ∧ u.stack = s.stack ∧
      SameExcept [] s u

/-- 3xnn and 4xnn: PC advances by 2 more when Vx equals nn, or differs from it, else stays; nothing else changes (R103,
R104, R107). -/
def Obligations.SkipsComparingByte : Prop :=
  ∀ (s : State) (x : RegIx) (nn : Byte),
    decode (0x3#4 ++ x ++ nn) = some (.seByte x nn) ∧ decode (0x4#4 ++ x ++ nn) = some (.sneByte x nn) ∧
    (∃ t, exec (.seByte x nn) s = .next t ∧ t.pc = (if s.getV x = nn then s.pc + 2#12 else s.pc) ∧ CompletedExcept [] s t) ∧
    ∃ t, exec (.sneByte x nn) s = .next t ∧ t.pc = (if s.getV x = nn then s.pc else s.pc + 2#12) ∧ CompletedExcept [] s t

/-- 5xy0 and 9xy0: PC advances by 2 more when Vx equals Vy, or differs from it, whatever the low nibble of the word (R105,
R106, R107). Rests on the spec's decision D10. -/
def Obligations.SkipsComparingRegisters : Prop :=
  ∀ (s : State) (x y : RegIx),
    (∀ n : Nibble, decode (0x5#4 ++ x ++ y ++ n) = some (.seReg x y) ∧
      decode (0x9#4 ++ x ++ y ++ n) = some (.sneReg x y)) ∧
    (∃ t, exec (.seReg x y) s = .next t ∧ t.pc = (if s.getV x = s.getV y then s.pc + 2#12 else s.pc) ∧
      CompletedExcept [] s t) ∧
    ∃ t, exec (.sneReg x y) s = .next t ∧ t.pc = (if s.getV x = s.getV y then s.pc else s.pc + 2#12) ∧
      CompletedExcept [] s t

/-- Bnnn: PC becomes nnn plus V0, or plus Vx with x = nnn[11:8] under `jumping`, modulo 4096 (R108). Rests on the spec's
decision D14. -/
def Obligations.JpV0AddsOffset : Prop :=
  ∀ (s : State) (nnn : Addr), decode (0xB#4 ++ nnn) = some (.jpV0 nnn) ∧
    ∃ t, exec (.jpV0 nnn) s = .next t ∧
      t.pc.toNat = (nnn.toNat + (if s.cfg.quirks.jumping then s.getV (BitVec.ofNat 4 (nnn.toNat / 256)) else s.getV 0#4).toNat)
        % 4096 ∧
      CompletedExcept [] s t

/-! ### Register loads and arithmetic (42_alu.md) -/

/-- 6xnn, 7xnn, 8xy0: Vx becomes nn, Vx + nn modulo 256, Vy; no flag is recorded, VF changing only as the destination
(R110, R111, R112). -/
def Obligations.LoadsAndAddByte : Prop :=
  ∀ (s : State) (x y : RegIx) (nn : Byte),
    decode (0x6#4 ++ x ++ nn) = some (.ldByte x nn) ∧ decode (0x7#4 ++ x ++ nn) = some (.addByte x nn) ∧
    decode (0x8#4 ++ x ++ y ++ 0x0#4) = some (.ldReg x y) ∧
    (∃ t, exec (.ldByte x nn) s = .next t ∧ t.getV x = nn ∧ t.pc = s.pc ∧ CompletedExcept [.reg x] s t) ∧
    (∃ t, exec (.addByte x nn) s = .next t ∧ (t.getV x).toNat = ((s.getV x).toNat + nn.toNat) % 256 ∧ t.pc = s.pc ∧
      CompletedExcept [.reg x] s t) ∧
    ∃ t, exec (.ldReg x y) s = .next t ∧ t.getV x = s.getV y ∧ t.pc = s.pc ∧ CompletedExcept [.reg x] s t

/-- 8xy1, 8xy2, 8xy3 with `vf_reset` on: Vx becomes the bitwise result and then VF becomes 0, so VF ends 0 also when it is
the destination; with it off, Vx becomes the result and VF changes only as the destination (R113, R114, R115). -/
def Obligations.LogicOperations : Prop :=
  (∀ x y : RegIx, decode (0x8#4 ++ x ++ y ++ 0x1#4) = some (.orReg x y) ∧
    decode (0x8#4 ++ x ++ y ++ 0x2#4) = some (.andReg x y) ∧ decode (0x8#4 ++ x ++ y ++ 0x3#4) = some (.xorReg x y)) ∧
  ∀ (s : State) (x y : RegIx) (i : Instr) (result : Byte),
    (i, result) ∈ [(Instr.orReg x y, s.getV x ||| s.getV y), (Instr.andReg x y, s.getV x &&& s.getV y),
      (Instr.xorReg x y, s.getV x ^^^ s.getV y)] →
    ∃ t, exec i s = .next t ∧ t.pc = s.pc ∧
      (s.cfg.quirks.vfReset = true →
        t.getV vf = 0#8 ∧ (x ≠ vf → t.getV x = result) ∧ CompletedExcept [.reg x, .reg vf] s t) ∧
      (s.cfg.quirks.vfReset = false → t.getV x = result ∧ CompletedExcept [.reg x] s t)

/-- 8xy4: Vx becomes the sum modulo 256 and VF the carry, written last (R116). VF last when x = F is the spec's decision
D11. -/
def Obligations.AddSetsCarry : Prop :=
  ∀ (s : State) (x y : RegIx), decode (0x8#4 ++ x ++ y ++ 0x4#4) = some (.addReg x y) ∧
    ∃ t, exec (.addReg x y) s = .next t ∧
      (x ≠ vf → (t.getV x).toNat = ((s.getV x).toNat + (s.getV y).toNat) % 256) ∧
      t.getV vf = (if (s.getV x).toNat + (s.getV y).toNat > 255 then 1#8 else 0#8) ∧
      t.pc = s.pc ∧ CompletedExcept [.reg x, .reg vf] s t

/-- 8xy5 and 8xy7: Vx becomes Vx - Vy, or Vy - Vx, modulo 256 and VF 1 when nothing was borrowed, written last (R117, R119).
VF last when x = F is the spec's decision D11. -/
def Obligations.SubtractionsSetNoBorrow : Prop :=
  ∀ (s : State) (x y : RegIx), decode (0x8#4 ++ x ++ y ++ 0x5#4) = some (.subReg x y) ∧
    decode (0x8#4 ++ x ++ y ++ 0x7#4) = some (.subnReg x y) ∧
    (∃ t, exec (.subReg x y) s = .next t ∧
      (x ≠ vf → (t.getV x).toNat = ((s.getV x).toNat + 256 - (s.getV y).toNat) % 256) ∧
      t.getV vf = (if (s.getV x).toNat ≥ (s.getV y).toNat then 1#8 else 0#8) ∧
      t.pc = s.pc ∧ CompletedExcept [.reg x, .reg vf] s t) ∧
    ∃ t, exec (.subnReg x y) s = .next t ∧
      (x ≠ vf → (t.getV x).toNat = ((s.getV y).toNat + 256 - (s.getV x).toNat) % 256) ∧
      t.getV vf = (if (s.getV y).toNat ≥ (s.getV x).toNat then 1#8 else 0#8) ∧
      t.pc = s.pc ∧ CompletedExcept [.reg x, .reg vf] s t

/-- 8xy6 and 8xyE: Vx becomes the source shifted by one bit, the source being Vx under `shifting` and Vy otherwise, and VF
the bit shifted out, written last (R118, R120). VF last when x = F is the spec's decision D11. -/
def Obligations.ShiftsSetBitOut : Prop :=
  ∀ (s : State) (x y : RegIx) (src : Nat),
    src = (if s.cfg.quirks.shifting then s.getV x else s.getV y).toNat →
    decode (0x8#4 ++ x ++ y ++ 0x6#4) = some (.shr x y) ∧ decode (0x8#4 ++ x ++ y ++ 0xE#4) = some (.shl x y) ∧
    (∃ t, exec (.shr x y) s = .next t ∧ (x ≠ vf → (t.getV x).toNat = src / 2) ∧ (t.getV vf).toNat = src % 2 ∧
      t.pc = s.pc ∧ CompletedExcept [.reg x, .reg vf] s t) ∧
    ∃ t, exec (.shl x y) s = .next t ∧ (x ≠ vf → (t.getV x).toNat = src * 2 % 256) ∧ (t.getV vf).toNat = src / 128 ∧
      t.pc = s.pc ∧ CompletedExcept [.reg x, .reg vf] s t

/-- Cxnn: Vx becomes some random byte AND nn, the byte of the next draw, and nothing else changes but the count of draws
(R121); so nn = 0 gives 0. It holds whatever the random source, a free value; the count of draws is the model's own
(notes/assumptions/3.md). Rests on the spec's decision D28. -/
def Obligations.RndMasksRandomByte : Prop :=
  ∀ (s : State) (x : RegIx) (nn : Byte), decode (0xC#4 ++ x ++ nn) = some (.rnd x nn) ∧
    ∃ t r, exec (.rnd x nn) s = .next t ∧ r = Config.randomByte s.draws ∧ t.getV x = r &&& nn ∧
      (nn = 0#8 → t.getV x = 0#8) ∧ t.draws = s.draws + 1 ∧ t.pc = s.pc ∧ CompletedExcept [.reg x, .draws] s t

/-! ### Index register and memory (43_index_memory.md) -/

/-- Annn, Fx1E, Fx29: I becomes nnn, I + Vx modulo 4096, Vx · 5; no flag and nothing else changes (R125, R129, R130). -/
def Obligations.IndexLoads : Prop :=
  ∀ (s : State) (x : RegIx) (nnn : Addr),
    decode (0xA#4 ++ nnn) = some (.ldI nnn) ∧ decode (0xF#4 ++ x ++ 0x1E#8) = some (.addI x) ∧
    decode (0xF#4 ++ x ++ 0x29#8) = some (.ldF x) ∧
    (∃ t, exec (.ldI nnn) s = .next t ∧ t.i.toNat = nnn.toNat ∧ t.pc = s.pc ∧ CompletedExcept [.index] s t) ∧
    (∃ t, exec (.addI x) s = .next t ∧ t.i.toNat = (s.i.toNat + (s.getV x).toNat) % 4096 ∧ t.pc = s.pc ∧
      CompletedExcept [.index] s t) ∧
    ∃ t, exec (.ldF x) s = .next t ∧ t.i.toNat = (s.getV x).toNat * 5 % 4096 ∧ t.pc = s.pc ∧
      CompletedExcept [.index] s t

/-- Fx33: the hundreds, tens and ones of Vx at I, I + 1, I + 2 modulo 4096, a font cell keeping its byte; I and all else
unchanged. Under `P_FONT_WRITE = fault` a font cell among the three raises FontWrite before any write (R131). Rests on the
spec's decisions D3, D4 and D35.
The fault's record and PC are those of 60_exceptions.md R147, the spec's decision D12, the word
of the record read again at the instruction's address (notes/assumptions/6.md). -/
def Obligations.BcdStoresDigits : Prop :=
  (∀ x : RegIx, decode (0xF#4 ++ x ++ 0x33#8) = some (.ldB x)) ∧
  (∀ (s : State) (x : RegIx), (s.cfg.fontWrite = .discard ∨ ∀ k, k < 3 → 0x050 ≤ (s.indexed k).toNat) →
    ∃ t, exec (.ldB x) s = .next t ∧
      (∀ k d, (k, d) ∈ [(0, (s.getV x).toNat / 100), (1, (s.getV x).toNat / 10 % 10), (2, (s.getV x).toNat % 10)] →
        (t.readByte (s.indexed k)).toNat =
          if (s.indexed k).toNat < 0x050 then (s.readByte (s.indexed k)).toNat else d) ∧
      t.pc = s.pc ∧ CompletedExcept (s.storedParts 3) s t) ∧
  ∀ (s : State) (x : RegIx) (k : Nat), s.cfg.fontWrite = .fault → k < 3 → (s.indexed k).toNat < 0x050 →
    ∃ t, exec (.ldB x) s = .next t ∧ TookFault .fontWrite s t

/-- Fx55: V0 to Vx at I to I + x modulo 4096, a font cell keeping its byte, and I := I + x + 1 modulo 4096 under
`memory_increment`, else unchanged. Under `P_FONT_WRITE = fault` a font cell among them raises FontWrite before any write
(R132). Rests on the spec's decisions D3 and D4.
The fault's record and PC are those of 60_exceptions.md R147, the spec's decision D12, the word
of the record read again at the instruction's address (notes/assumptions/6.md). -/
def Obligations.StoreRegistersToMemory : Prop :=
  (∀ x : RegIx, decode (0xF#4 ++ x ++ 0x55#8) = some (.storeRegs x)) ∧
  (∀ (s : State) (x : RegIx), (s.cfg.fontWrite = .discard ∨ ∀ k, k ≤ x.toNat → 0x050 ≤ (s.indexed k).toNat) →
    ∃ t, exec (.storeRegs x) s = .next t ∧
      (∀ r : RegIx, r.toNat ≤ x.toNat → t.readByte (s.indexed r.toNat) =
        if (s.indexed r.toNat).toNat < 0x050 then s.readByte (s.indexed r.toNat) else s.getV r) ∧
      (s.cfg.quirks.memoryIncrement = true → t.i.toNat = (s.i.toNat + x.toNat + 1) % 4096) ∧
      (s.cfg.quirks.memoryIncrement = false → t.i = s.i) ∧
      t.pc = s.pc ∧ CompletedExcept (.index :: s.storedParts (x.toNat + 1)) s t) ∧
  ∀ (s : State) (x : RegIx) (k : Nat), s.cfg.fontWrite = .fault → k ≤ x.toNat → (s.indexed k).toNat < 0x050 →
    ∃ t, exec (.storeRegs x) s = .next t ∧ TookFault .fontWrite s t

/-- Fx65: V0 to Vx become the bytes at I to I + x modulo 4096, VF among them only when x = F, and I := I + x + 1 modulo
4096 under `memory_increment`, else unchanged; no fault (R133, R51). The wrap of
the addresses past 0xFFF is the spec's decision D3 (notes/assumptions/9.md). -/
def Obligations.LoadRegistersFromMemory : Prop :=
  ∀ (s : State) (x : RegIx), decode (0xF#4 ++ x ++ 0x65#8) = some (.loadRegs x) ∧
    ∃ t, exec (.loadRegs x) s = .next t ∧
      (∀ r : RegIx, r.toNat ≤ x.toNat → t.getV r = s.readByte (s.indexed r.toNat)) ∧
      (s.cfg.quirks.memoryIncrement = true → t.i.toNat = (s.i.toNat + x.toNat + 1) % 4096) ∧
      (s.cfg.quirks.memoryIncrement = false → t.i = s.i) ∧
      t.pc = s.pc ∧ CompletedExcept (.index :: regsTo x) s t

/-- A store is seen by the very next fetch (20_memory.md R62): after Fx55 has stored V0 and V1 at `PC`, outside the font, the
next word fetched is V0 · 256 + V1. Rests on the spec's decision D20. -/
def Obligations.StoreIsSeenByNextFetch : Prop :=
  ∀ (s : State) (x : RegIx), 1 ≤ x.toNat → s.iAddr = s.pc → 0x050 ≤ s.pc.toNat → s.pc.toNat + x.toNat < 0x1000 →
    ∃ t, exec (.storeRegs x) s = .next t ∧ t.fetchWord.toNat = (s.getV 0#4).toNat * 256 + (s.getV 1#4).toNat

/-! ### Keys and timers (44_timers_keys.md) -/

/-- Ex9E and ExA1: PC advances by 2 more when the key Vx names is held, or is not; Vx of 16 or more raises
KeyIndexOutOfRange under `P_KEY_OOR = fault` and names its low nibble's key under `low_nibble` (R135, R136, R137). Rests on
the spec's decision D13.
The fault's record and PC are those of 60_exceptions.md R147, the spec's decision D12, the word
of the record read again at the instruction's address (notes/assumptions/6.md). -/
def Obligations.KeySkips : Prop :=
  (∀ x : RegIx, decode (0xE#4 ++ x ++ 0x9E#8) = some (.skp x) ∧ decode (0xE#4 ++ x ++ 0xA1#8) = some (.sknp x)) ∧
  (∀ (s : State) (x : RegIx) (k : Key), k.toNat = (s.getV x).toNat % 16 →
    ((s.getV x).toNat < 16 ∨ s.cfg.keyOutOfRange = .lowNibble) →
    (∃ t, exec (.skp x) s = .next t ∧ t.pc = (if s.keyHeld k then s.pc + 2#12 else s.pc) ∧ CompletedExcept [] s t) ∧
    ∃ t, exec (.sknp x) s = .next t ∧ t.pc = (if s.keyHeld k then s.pc else s.pc + 2#12) ∧ CompletedExcept [] s t) ∧
  ∀ (s : State) (x : RegIx), 16 ≤ (s.getV x).toNat → s.cfg.keyOutOfRange = .fault →
    (∃ t, exec (.skp x) s = .next t ∧ TookFault .keyIndexOutOfRange s t) ∧
    ∃ t, exec (.sknp x) s = .next t ∧ TookFault .keyIndexOutOfRange s t

/-- Fx07, Fx15, Fx18: Vx becomes DT, DT becomes Vx, ST becomes Vx, whole, and nothing else changes (R138, R139, R140). -/
def Obligations.TimerMoves : Prop :=
  ∀ (s : State) (x : RegIx),
    decode (0xF#4 ++ x ++ 0x07#8) = some (.ldVxDt x) ∧ decode (0xF#4 ++ x ++ 0x15#8) = some (.ldDtVx x) ∧
    decode (0xF#4 ++ x ++ 0x18#8) = some (.ldStVx x) ∧
    (∃ t, exec (.ldVxDt x) s = .next t ∧ t.getV x = s.dt ∧ t.pc = s.pc ∧ CompletedExcept [.reg x] s t) ∧
    (∃ t, exec (.ldDtVx x) s = .next t ∧ t.dt = s.getV x ∧ t.pc = s.pc ∧ CompletedExcept [.delayTimer] s t) ∧
    ∃ t, exec (.ldStVx x) s = .next t ∧ t.st = s.getV x ∧ t.pc = s.pc ∧ CompletedExcept [.soundTimer] s t

/-- Fx0A: a latched key goes into Vx and the latch is cleared; with none latched the instruction is blocked, PC on itself
again and nothing else changed, whatever keys are held (R141). -/
def Obligations.KeyWait : Prop :=
  ∀ (s : State) (x : RegIx), decode (0xF#4 ++ x ++ 0x0A#8) = some (.ldVxK x) ∧
    (∀ k : Key, s.latch = some k →
      ∃ t, exec (.ldVxK x) s = .next t ∧ (t.getV x).toNat = k.toNat ∧ t.latch = none ∧ t.pc = s.pc ∧
        CompletedExcept [.reg x, .latch] s t) ∧
    (s.latch = none → ∃ t, exec (.ldVxK x) s = .next t ∧ Blocked .awaitingKey s t)
end

