-- ==== Sys2Proof/Laws/Decode.lean ====
section
/-! SUPPORT. The fields of a word put together from its fields (30_encoding.md R71, R72). -/

namespace Sys2Proof

/-! ### The bits of a word put together from fields -/

theorem getLsbD_wordA (f : Nibble) (nnn : Addr) (i : Nat) :
    (wordA f nnn).getLsbD i = if i < 12 then nnn.getLsbD i else f.getLsbD (i - 12) :=
  BitVec.getLsbD_append

theorem getLsbD_wordXB (f x : Nibble) (low : Byte) (i : Nat) :
    (wordXB f x low).getLsbD i =
      if i < 8 then low.getLsbD i else if i - 8 < 4 then x.getLsbD (i - 8) else f.getLsbD (i - 8 - 4) := by
  refine (BitVec.getLsbD_append (x := f ++ x) (y := low)).trans ?_
  rw [BitVec.getLsbD_append]

theorem getLsbD_wordXYN (f x y n : Nibble) (i : Nat) :
    (wordXYN f x y n).getLsbD i =
      if i < 4 then n.getLsbD i else if i - 4 < 4 then y.getLsbD (i - 4)
      else if i - 4 - 4 < 4 then x.getLsbD (i - 4 - 4) else f.getLsbD (i - 4 - 4 - 4) := by
  refine (BitVec.getLsbD_append (x := f ++ x ++ y) (y := n)).trans ?_
  rw [BitVec.getLsbD_append, BitVec.getLsbD_append]

theorem getLsbD_ofBytes (a b : Byte) (i : Nat) :
    (Word.ofBytes a b).getLsbD i = if i < 8 then b.getLsbD i else a.getLsbD (i - 8) :=
  BitVec.getLsbD_append

/-! ### Their fields -/

section
variable (f a b c : Nibble) (low : Byte) (nnn : Addr)

@[simp] theorem family_wordA : Word.family (wordA f nnn) = f := by
  apply BitVec.eq_of_getLsbD_eq
  intro i hi
  simp only [Word.family, BitVec.getLsbD_extractLsb', getLsbD_wordA]
  interval_cases i <;> simp

@[simp] theorem nnn_wordA : Word.nnn (wordA f nnn) = nnn := by
  apply BitVec.eq_of_getLsbD_eq
  intro i hi
  simp only [Word.nnn, BitVec.getLsbD_extractLsb', getLsbD_wordA]
  interval_cases i <;> simp

@[simp] theorem family_wordXB : Word.family (wordXB f a low) = f := by
  apply BitVec.eq_of_getLsbD_eq
  intro i hi
  simp only [Word.family, BitVec.getLsbD_extractLsb', getLsbD_wordXB]
  interval_cases i <;> simp

@[simp] theorem x_wordXB : Word.x (wordXB f a low) = a := by
  apply BitVec.eq_of_getLsbD_eq
  intro i hi
  simp only [Word.x, BitVec.getLsbD_extractLsb', getLsbD_wordXB]
  interval_cases i <;> simp

@[simp] theorem nn_wordXB : Word.nn (wordXB f a low) = low := by
  apply BitVec.eq_of_getLsbD_eq
  intro i hi
  simp only [Word.nn, BitVec.getLsbD_extractLsb', getLsbD_wordXB]
  interval_cases i <;> simp

@[simp] theorem family_wordXYN : Word.family (wordXYN f a b c) = f := by
  apply BitVec.eq_of_getLsbD_eq
  intro i hi
  simp only [Word.family, BitVec.getLsbD_extractLsb', getLsbD_wordXYN]
  interval_cases i <;> simp

@[simp] theorem x_wordXYN : Word.x (wordXYN f a b c) = a := by
  apply BitVec.eq_of_getLsbD_eq
  intro i hi
  simp only [Word.x, BitVec.getLsbD_extractLsb', getLsbD_wordXYN]
  interval_cases i <;> simp

@[simp] theorem y_wordXYN : Word.y (wordXYN f a b c) = b := by
  apply BitVec.eq_of_getLsbD_eq
  intro i hi
  simp only [Word.y, BitVec.getLsbD_extractLsb', getLsbD_wordXYN]
  interval_cases i <;> simp

@[simp] theorem n_wordXYN : Word.n (wordXYN f a b c) = c := by
  apply BitVec.eq_of_getLsbD_eq
  intro i hi
  simp only [Word.n, BitVec.getLsbD_extractLsb', getLsbD_wordXYN]
  interval_cases i <;> simp

end

/-- A word's two bytes put together again are the word (20_memory.md R56). -/
@[simp] theorem ofBytes_high_low (w : Word) : Word.ofBytes (Word.highByte w) (Word.lowByte w) = w := by
  apply BitVec.eq_of_getLsbD_eq
  intro i hi
  simp only [getLsbD_ofBytes, Word.highByte, Word.lowByte, BitVec.getLsbD_extractLsb']
  interval_cases i <;> simp

@[simp] theorem highByte_ofBytes (a b : Byte) : Word.highByte (Word.ofBytes a b) = a := by
  apply BitVec.eq_of_getLsbD_eq
  intro i hi
  simp only [getLsbD_ofBytes, Word.highByte, BitVec.getLsbD_extractLsb']
  interval_cases i <;> simp

@[simp] theorem lowByte_ofBytes (a b : Byte) : Word.lowByte (Word.ofBytes a b) = b := by
  apply BitVec.eq_of_getLsbD_eq
  intro i hi
  simp only [getLsbD_ofBytes, Word.lowByte, BitVec.getLsbD_extractLsb']
  interval_cases i <;> simp

/-- The value of a big-endian word (20_memory.md R56). -/
theorem ofBytes_toNat (a b : Byte) : (Word.ofBytes a b).toNat = a.toNat * 256 + b.toNat := by
  refine (BitVec.toNat_append a b).trans ?_
  rw [← Nat.shiftLeft_add_eq_or_of_lt b.isLt, Nat.shiftLeft_eq]

/-- Decoding a table word is decoding the 16-bit word (30_encoding.md R70). -/
theorem decodeTableWord_eq (nbits w : Nat) : decodeTableWord nbits w = decode (BitVec.ofNat 16 (w % 2 ^ nbits)) := by
  simp only [decodeTableWord, decodeBytes, ofBytes_high_low]
  cases decode (BitVec.ofNat 16 (w % 2 ^ nbits)) <;> rfl

/-- A nibble that is none of the first fifteen values is the last: the decoder's family left over is F. -/
theorem nibble_eq_F {f : Nibble} (h : ∀ k : Fin 15, f ≠ BitVec.ofNat 4 k.val) : f = 0xF#4 := by
  revert f
  decide

end Sys2Proof
end

