-- ==== Sys2Proof/Laws/State.lean ====
section
/-! SUPPORT. One lemma per field per update of the state, and per read of it that the update does not touch, each true by
rfl, so that no later proof unfolds a record update. -/

namespace Sys2Proof.Machine

/-! ### setV -/

section
variable (s : State) (x : RegIx) (b : Byte)

@[simp] theorem State.setV_cfg : (s.setV x b).cfg = s.cfg := rfl
@[simp] theorem State.setV_v : (s.setV x b).v = s.v.set x.toNat b x.isLt := rfl
@[simp] theorem State.setV_i : (s.setV x b).i = s.i := rfl
@[simp] theorem State.setV_pc : (s.setV x b).pc = s.pc := rfl
@[simp] theorem State.setV_stack : (s.setV x b).stack = s.stack := rfl
@[simp] theorem State.setV_dt : (s.setV x b).dt = s.dt := rfl
@[simp] theorem State.setV_st : (s.setV x b).st = s.st := rfl
@[simp] theorem State.setV_mem : (s.setV x b).mem = s.mem := rfl
@[simp] theorem State.setV_display : (s.setV x b).display = s.display := rfl
@[simp] theorem State.setV_keys : (s.setV x b).keys = s.keys := rfl
@[simp] theorem State.setV_latch : (s.setV x b).latch = s.latch := rfl
@[simp] theorem State.setV_vblankSeen : (s.setV x b).vblankSeen = s.vblankSeen := rfl
@[simp] theorem State.setV_halt : (s.setV x b).halt = s.halt := rfl
@[simp] theorem State.setV_status : (s.setV x b).status = s.status := rfl
@[simp] theorem State.setV_draws : (s.setV x b).draws = s.draws := rfl
@[simp] theorem State.setV_readByte (a' : Addr) : (s.setV x b).readByte a' = s.readByte a' := rfl
@[simp] theorem State.setV_readWord (a' : Addr) : (s.setV x b).readWord a' = s.readWord a' := rfl
@[simp] theorem State.setV_fetchWord : (s.setV x b).fetchWord = s.fetchWord := rfl
@[simp] theorem State.setV_iAddr : (s.setV x b).iAddr = s.iAddr := rfl
@[simp] theorem State.setV_indexed (j : Nat) : (s.setV x b).indexed j = s.indexed j := rfl
@[simp] theorem State.setV_sp : (s.setV x b).sp = s.sp := rfl
@[simp] theorem State.setV_pix (c r' : Nat) : (s.setV x b).pix c r' = s.pix c r' := rfl
@[simp] theorem State.setV_keyHeld (k' : Key) : (s.setV x b).keyHeld k' = s.keyHeld k' := rfl
@[simp] theorem State.setV_instrAddr : (s.setV x b).instrAddr = s.instrAddr := rfl

end

/-! ### setI -/

section
variable (s : State) (n : BitVec 16)

@[simp] theorem State.setI_cfg : (s.setI n).cfg = s.cfg := rfl
@[simp] theorem State.setI_v : (s.setI n).v = s.v := rfl
@[simp] theorem State.setI_i : (s.setI n).i = n % 0x1000#16 := rfl
@[simp] theorem State.setI_pc : (s.setI n).pc = s.pc := rfl
@[simp] theorem State.setI_stack : (s.setI n).stack = s.stack := rfl
@[simp] theorem State.setI_dt : (s.setI n).dt = s.dt := rfl
@[simp] theorem State.setI_st : (s.setI n).st = s.st := rfl
@[simp] theorem State.setI_mem : (s.setI n).mem = s.mem := rfl
@[simp] theorem State.setI_display : (s.setI n).display = s.display := rfl
@[simp] theorem State.setI_keys : (s.setI n).keys = s.keys := rfl
@[simp] theorem State.setI_latch : (s.setI n).latch = s.latch := rfl
@[simp] theorem State.setI_vblankSeen : (s.setI n).vblankSeen = s.vblankSeen := rfl
@[simp] theorem State.setI_halt : (s.setI n).halt = s.halt := rfl
@[simp] theorem State.setI_status : (s.setI n).status = s.status := rfl
@[simp] theorem State.setI_draws : (s.setI n).draws = s.draws := rfl
@[simp] theorem State.setI_getV (y : RegIx) : (s.setI n).getV y = s.getV y := rfl
@[simp] theorem State.setI_readByte (a' : Addr) : (s.setI n).readByte a' = s.readByte a' := rfl
@[simp] theorem State.setI_readWord (a' : Addr) : (s.setI n).readWord a' = s.readWord a' := rfl
@[simp] theorem State.setI_fetchWord : (s.setI n).fetchWord = s.fetchWord := rfl
@[simp] theorem State.setI_sp : (s.setI n).sp = s.sp := rfl
@[simp] theorem State.setI_pix (c r' : Nat) : (s.setI n).pix c r' = s.pix c r' := rfl
@[simp] theorem State.setI_keyHeld (k' : Key) : (s.setI n).keyHeld k' = s.keyHeld k' := rfl
@[simp] theorem State.setI_instrAddr : (s.setI n).instrAddr = s.instrAddr := rfl

end

/-! ### setPc -/

section
variable (s : State) (a : Addr)

@[simp] theorem State.setPc_cfg : (s.setPc a).cfg = s.cfg := rfl
@[simp] theorem State.setPc_v : (s.setPc a).v = s.v := rfl
@[simp] theorem State.setPc_i : (s.setPc a).i = s.i := rfl
@[simp] theorem State.setPc_pc : (s.setPc a).pc = a := rfl
@[simp] theorem State.setPc_stack : (s.setPc a).stack = s.stack := rfl
@[simp] theorem State.setPc_dt : (s.setPc a).dt = s.dt := rfl
@[simp] theorem State.setPc_st : (s.setPc a).st = s.st := rfl
@[simp] theorem State.setPc_mem : (s.setPc a).mem = s.mem := rfl
@[simp] theorem State.setPc_display : (s.setPc a).display = s.display := rfl
@[simp] theorem State.setPc_keys : (s.setPc a).keys = s.keys := rfl
@[simp] theorem State.setPc_latch : (s.setPc a).latch = s.latch := rfl
@[simp] theorem State.setPc_vblankSeen : (s.setPc a).vblankSeen = s.vblankSeen := rfl
@[simp] theorem State.setPc_halt : (s.setPc a).halt = s.halt := rfl
@[simp] theorem State.setPc_status : (s.setPc a).status = s.status := rfl
@[simp] theorem State.setPc_draws : (s.setPc a).draws = s.draws := rfl
@[simp] theorem State.setPc_getV (y : RegIx) : (s.setPc a).getV y = s.getV y := rfl
@[simp] theorem State.setPc_readByte (a' : Addr) : (s.setPc a).readByte a' = s.readByte a' := rfl
@[simp] theorem State.setPc_readWord (a' : Addr) : (s.setPc a).readWord a' = s.readWord a' := rfl
@[simp] theorem State.setPc_iAddr : (s.setPc a).iAddr = s.iAddr := rfl
@[simp] theorem State.setPc_indexed (j : Nat) : (s.setPc a).indexed j = s.indexed j := rfl
@[simp] theorem State.setPc_sp : (s.setPc a).sp = s.sp := rfl
@[simp] theorem State.setPc_pix (c r' : Nat) : (s.setPc a).pix c r' = s.pix c r' := rfl
@[simp] theorem State.setPc_keyHeld (k' : Key) : (s.setPc a).keyHeld k' = s.keyHeld k' := rfl

end

/-! ### setStack -/

section
variable (s : State) (l : List Addr)

@[simp] theorem State.setStack_cfg : (s.setStack l).cfg = s.cfg := rfl
@[simp] theorem State.setStack_v : (s.setStack l).v = s.v := rfl
@[simp] theorem State.setStack_i : (s.setStack l).i = s.i := rfl
@[simp] theorem State.setStack_pc : (s.setStack l).pc = s.pc := rfl
@[simp] theorem State.setStack_stack : (s.setStack l).stack = l := rfl
@[simp] theorem State.setStack_dt : (s.setStack l).dt = s.dt := rfl
@[simp] theorem State.setStack_st : (s.setStack l).st = s.st := rfl
@[simp] theorem State.setStack_mem : (s.setStack l).mem = s.mem := rfl
@[simp] theorem State.setStack_display : (s.setStack l).display = s.display := rfl
@[simp] theorem State.setStack_keys : (s.setStack l).keys = s.keys := rfl
@[simp] theorem State.setStack_latch : (s.setStack l).latch = s.latch := rfl
@[simp] theorem State.setStack_vblankSeen : (s.setStack l).vblankSeen = s.vblankSeen := rfl
@[simp] theorem State.setStack_halt : (s.setStack l).halt = s.halt := rfl
@[simp] theorem State.setStack_status : (s.setStack l).status = s.status := rfl
@[simp] theorem State.setStack_draws : (s.setStack l).draws = s.draws := rfl
@[simp] theorem State.setStack_getV (y : RegIx) : (s.setStack l).getV y = s.getV y := rfl
@[simp] theorem State.setStack_readByte (a' : Addr) : (s.setStack l).readByte a' = s.readByte a' := rfl
@[simp] theorem State.setStack_readWord (a' : Addr) : (s.setStack l).readWord a' = s.readWord a' := rfl
@[simp] theorem State.setStack_fetchWord : (s.setStack l).fetchWord = s.fetchWord := rfl
@[simp] theorem State.setStack_iAddr : (s.setStack l).iAddr = s.iAddr := rfl
@[simp] theorem State.setStack_indexed (j : Nat) : (s.setStack l).indexed j = s.indexed j := rfl
@[simp] theorem State.setStack_pix (c r' : Nat) : (s.setStack l).pix c r' = s.pix c r' := rfl
@[simp] theorem State.setStack_keyHeld (k' : Key) : (s.setStack l).keyHeld k' = s.keyHeld k' := rfl
@[simp] theorem State.setStack_instrAddr : (s.setStack l).instrAddr = s.instrAddr := rfl

end

/-! ### setDt -/

section
variable (s : State) (b : Byte)

@[simp] theorem State.setDt_cfg : (s.setDt b).cfg = s.cfg := rfl
@[simp] theorem State.setDt_v : (s.setDt b).v = s.v := rfl
@[simp] theorem State.setDt_i : (s.setDt b).i = s.i := rfl
@[simp] theorem State.setDt_pc : (s.setDt b).pc = s.pc := rfl
@[simp] theorem State.setDt_stack : (s.setDt b).stack = s.stack := rfl
@[simp] theorem State.setDt_dt : (s.setDt b).dt = b := rfl
@[simp] theorem State.setDt_st : (s.setDt b).st = s.st := rfl
@[simp] theorem State.setDt_mem : (s.setDt b).mem = s.mem := rfl
@[simp] theorem State.setDt_display : (s.setDt b).display = s.display := rfl
@[simp] theorem State.setDt_keys : (s.setDt b).keys = s.keys := rfl
@[simp] theorem State.setDt_latch : (s.setDt b).latch = s.latch := rfl
@[simp] theorem State.setDt_vblankSeen : (s.setDt b).vblankSeen = s.vblankSeen := rfl
@[simp] theorem State.setDt_halt : (s.setDt b).halt = s.halt := rfl
@[simp] theorem State.setDt_status : (s.setDt b).status = s.status := rfl
@[simp] theorem State.setDt_draws : (s.setDt b).draws = s.draws := rfl
@[simp] theorem State.setDt_getV (y : RegIx) : (s.setDt b).getV y = s.getV y := rfl
@[simp] theorem State.setDt_readByte (a' : Addr) : (s.setDt b).readByte a' = s.readByte a' := rfl
@[simp] theorem State.setDt_readWord (a' : Addr) : (s.setDt b).readWord a' = s.readWord a' := rfl
@[simp] theorem State.setDt_fetchWord : (s.setDt b).fetchWord = s.fetchWord := rfl
@[simp] theorem State.setDt_iAddr : (s.setDt b).iAddr = s.iAddr := rfl
@[simp] theorem State.setDt_indexed (j : Nat) : (s.setDt b).indexed j = s.indexed j := rfl
@[simp] theorem State.setDt_sp : (s.setDt b).sp = s.sp := rfl
@[simp] theorem State.setDt_pix (c r' : Nat) : (s.setDt b).pix c r' = s.pix c r' := rfl
@[simp] theorem State.setDt_keyHeld (k' : Key) : (s.setDt b).keyHeld k' = s.keyHeld k' := rfl
@[simp] theorem State.setDt_instrAddr : (s.setDt b).instrAddr = s.instrAddr := rfl

end

/-! ### setSt -/

section
variable (s : State) (b : Byte)

@[simp] theorem State.setSt_cfg : (s.setSt b).cfg = s.cfg := rfl
@[simp] theorem State.setSt_v : (s.setSt b).v = s.v := rfl
@[simp] theorem State.setSt_i : (s.setSt b).i = s.i := rfl
@[simp] theorem State.setSt_pc : (s.setSt b).pc = s.pc := rfl
@[simp] theorem State.setSt_stack : (s.setSt b).stack = s.stack := rfl
@[simp] theorem State.setSt_dt : (s.setSt b).dt = s.dt := rfl
@[simp] theorem State.setSt_st : (s.setSt b).st = b := rfl
@[simp] theorem State.setSt_mem : (s.setSt b).mem = s.mem := rfl
@[simp] theorem State.setSt_display : (s.setSt b).display = s.display := rfl
@[simp] theorem State.setSt_keys : (s.setSt b).keys = s.keys := rfl
@[simp] theorem State.setSt_latch : (s.setSt b).latch = s.latch := rfl
@[simp] theorem State.setSt_vblankSeen : (s.setSt b).vblankSeen = s.vblankSeen := rfl
@[simp] theorem State.setSt_halt : (s.setSt b).halt = s.halt := rfl
@[simp] theorem State.setSt_status : (s.setSt b).status = s.status := rfl
@[simp] theorem State.setSt_draws : (s.setSt b).draws = s.draws := rfl
@[simp] theorem State.setSt_getV (y : RegIx) : (s.setSt b).getV y = s.getV y := rfl
@[simp] theorem State.setSt_readByte (a' : Addr) : (s.setSt b).readByte a' = s.readByte a' := rfl
@[simp] theorem State.setSt_readWord (a' : Addr) : (s.setSt b).readWord a' = s.readWord a' := rfl
@[simp] theorem State.setSt_fetchWord : (s.setSt b).fetchWord = s.fetchWord := rfl
@[simp] theorem State.setSt_iAddr : (s.setSt b).iAddr = s.iAddr := rfl
@[simp] theorem State.setSt_indexed (j : Nat) : (s.setSt b).indexed j = s.indexed j := rfl
@[simp] theorem State.setSt_sp : (s.setSt b).sp = s.sp := rfl
@[simp] theorem State.setSt_pix (c r' : Nat) : (s.setSt b).pix c r' = s.pix c r' := rfl
@[simp] theorem State.setSt_keyHeld (k' : Key) : (s.setSt b).keyHeld k' = s.keyHeld k' := rfl
@[simp] theorem State.setSt_instrAddr : (s.setSt b).instrAddr = s.instrAddr := rfl

end

/-! ### setMem -/

section
variable (s : State) (m : List Host.Cell)

@[simp] theorem State.setMem_cfg : (s.setMem m).cfg = s.cfg := rfl
@[simp] theorem State.setMem_v : (s.setMem m).v = s.v := rfl
@[simp] theorem State.setMem_i : (s.setMem m).i = s.i := rfl
@[simp] theorem State.setMem_pc : (s.setMem m).pc = s.pc := rfl
@[simp] theorem State.setMem_stack : (s.setMem m).stack = s.stack := rfl
@[simp] theorem State.setMem_dt : (s.setMem m).dt = s.dt := rfl
@[simp] theorem State.setMem_st : (s.setMem m).st = s.st := rfl
@[simp] theorem State.setMem_mem : (s.setMem m).mem = m := rfl
@[simp] theorem State.setMem_display : (s.setMem m).display = s.display := rfl
@[simp] theorem State.setMem_keys : (s.setMem m).keys = s.keys := rfl
@[simp] theorem State.setMem_latch : (s.setMem m).latch = s.latch := rfl
@[simp] theorem State.setMem_vblankSeen : (s.setMem m).vblankSeen = s.vblankSeen := rfl
@[simp] theorem State.setMem_halt : (s.setMem m).halt = s.halt := rfl
@[simp] theorem State.setMem_status : (s.setMem m).status = s.status := rfl
@[simp] theorem State.setMem_draws : (s.setMem m).draws = s.draws := rfl
@[simp] theorem State.setMem_getV (y : RegIx) : (s.setMem m).getV y = s.getV y := rfl
@[simp] theorem State.setMem_iAddr : (s.setMem m).iAddr = s.iAddr := rfl
@[simp] theorem State.setMem_indexed (j : Nat) : (s.setMem m).indexed j = s.indexed j := rfl
@[simp] theorem State.setMem_sp : (s.setMem m).sp = s.sp := rfl
@[simp] theorem State.setMem_pix (c r' : Nat) : (s.setMem m).pix c r' = s.pix c r' := rfl
@[simp] theorem State.setMem_keyHeld (k' : Key) : (s.setMem m).keyHeld k' = s.keyHeld k' := rfl
@[simp] theorem State.setMem_instrAddr : (s.setMem m).instrAddr = s.instrAddr := rfl

end

/-! ### setDisplay -/

section
variable (s : State) (d : List (List Bool))

@[simp] theorem State.setDisplay_cfg : (s.setDisplay d).cfg = s.cfg := rfl
@[simp] theorem State.setDisplay_v : (s.setDisplay d).v = s.v := rfl
@[simp] theorem State.setDisplay_i : (s.setDisplay d).i = s.i := rfl
@[simp] theorem State.setDisplay_pc : (s.setDisplay d).pc = s.pc := rfl
@[simp] theorem State.setDisplay_stack : (s.setDisplay d).stack = s.stack := rfl
@[simp] theorem State.setDisplay_dt : (s.setDisplay d).dt = s.dt := rfl
@[simp] theorem State.setDisplay_st : (s.setDisplay d).st = s.st := rfl
@[simp] theorem State.setDisplay_mem : (s.setDisplay d).mem = s.mem := rfl
@[simp] theorem State.setDisplay_display : (s.setDisplay d).display = d := rfl
@[simp] theorem State.setDisplay_keys : (s.setDisplay d).keys = s.keys := rfl
@[simp] theorem State.setDisplay_latch : (s.setDisplay d).latch = s.latch := rfl
@[simp] theorem State.setDisplay_vblankSeen : (s.setDisplay d).vblankSeen = s.vblankSeen := rfl
@[simp] theorem State.setDisplay_halt : (s.setDisplay d).halt = s.halt := rfl
@[simp] theorem State.setDisplay_status : (s.setDisplay d).status = s.status := rfl
@[simp] theorem State.setDisplay_draws : (s.setDisplay d).draws = s.draws := rfl
@[simp] theorem State.setDisplay_getV (y : RegIx) : (s.setDisplay d).getV y = s.getV y := rfl
@[simp] theorem State.setDisplay_readByte (a' : Addr) : (s.setDisplay d).readByte a' = s.readByte a' := rfl
@[simp] theorem State.setDisplay_readWord (a' : Addr) : (s.setDisplay d).readWord a' = s.readWord a' := rfl
@[simp] theorem State.setDisplay_fetchWord : (s.setDisplay d).fetchWord = s.fetchWord := rfl
@[simp] theorem State.setDisplay_iAddr : (s.setDisplay d).iAddr = s.iAddr := rfl
@[simp] theorem State.setDisplay_indexed (j : Nat) : (s.setDisplay d).indexed j = s.indexed j := rfl
@[simp] theorem State.setDisplay_sp : (s.setDisplay d).sp = s.sp := rfl
@[simp] theorem State.setDisplay_keyHeld (k' : Key) : (s.setDisplay d).keyHeld k' = s.keyHeld k' := rfl
@[simp] theorem State.setDisplay_instrAddr : (s.setDisplay d).instrAddr = s.instrAddr := rfl

end

/-! ### setKeys -/

section
variable (s : State) (k : Vector Bool 16)

@[simp] theorem State.setKeys_cfg : (s.setKeys k).cfg = s.cfg := rfl
@[simp] theorem State.setKeys_v : (s.setKeys k).v = s.v := rfl
@[simp] theorem State.setKeys_i : (s.setKeys k).i = s.i := rfl
@[simp] theorem State.setKeys_pc : (s.setKeys k).pc = s.pc := rfl
@[simp] theorem State.setKeys_stack : (s.setKeys k).stack = s.stack := rfl
@[simp] theorem State.setKeys_dt : (s.setKeys k).dt = s.dt := rfl
@[simp] theorem State.setKeys_st : (s.setKeys k).st = s.st := rfl
@[simp] theorem State.setKeys_mem : (s.setKeys k).mem = s.mem := rfl
@[simp] theorem State.setKeys_display : (s.setKeys k).display = s.display := rfl
@[simp] theorem State.setKeys_keys : (s.setKeys k).keys = k := rfl
@[simp] theorem State.setKeys_latch : (s.setKeys k).latch = s.latch := rfl
@[simp] theorem State.setKeys_vblankSeen : (s.setKeys k).vblankSeen = s.vblankSeen := rfl
@[simp] theorem State.setKeys_halt : (s.setKeys k).halt = s.halt := rfl
@[simp] theorem State.setKeys_status : (s.setKeys k).status = s.status := rfl
@[simp] theorem State.setKeys_draws : (s.setKeys k).draws = s.draws := rfl
@[simp] theorem State.setKeys_getV (y : RegIx) : (s.setKeys k).getV y = s.getV y := rfl
@[simp] theorem State.setKeys_readByte (a' : Addr) : (s.setKeys k).readByte a' = s.readByte a' := rfl
@[simp] theorem State.setKeys_readWord (a' : Addr) : (s.setKeys k).readWord a' = s.readWord a' := rfl
@[simp] theorem State.setKeys_fetchWord : (s.setKeys k).fetchWord = s.fetchWord := rfl
@[simp] theorem State.setKeys_iAddr : (s.setKeys k).iAddr = s.iAddr := rfl
@[simp] theorem State.setKeys_indexed (j : Nat) : (s.setKeys k).indexed j = s.indexed j := rfl
@[simp] theorem State.setKeys_sp : (s.setKeys k).sp = s.sp := rfl
@[simp] theorem State.setKeys_pix (c r' : Nat) : (s.setKeys k).pix c r' = s.pix c r' := rfl
@[simp] theorem State.setKeys_instrAddr : (s.setKeys k).instrAddr = s.instrAddr := rfl

end

/-! ### setLatch -/

section
variable (s : State) (k : Option Key)

@[simp] theorem State.setLatch_cfg : (s.setLatch k).cfg = s.cfg := rfl
@[simp] theorem State.setLatch_v : (s.setLatch k).v = s.v := rfl
@[simp] theorem State.setLatch_i : (s.setLatch k).i = s.i := rfl
@[simp] theorem State.setLatch_pc : (s.setLatch k).pc = s.pc := rfl
@[simp] theorem State.setLatch_stack : (s.setLatch k).stack = s.stack := rfl
@[simp] theorem State.setLatch_dt : (s.setLatch k).dt = s.dt := rfl
@[simp] theorem State.setLatch_st : (s.setLatch k).st = s.st := rfl
@[simp] theorem State.setLatch_mem : (s.setLatch k).mem = s.mem := rfl
@[simp] theorem State.setLatch_display : (s.setLatch k).display = s.display := rfl
@[simp] theorem State.setLatch_keys : (s.setLatch k).keys = s.keys := rfl
@[simp] theorem State.setLatch_latch : (s.setLatch k).latch = k := rfl
@[simp] theorem State.setLatch_vblankSeen : (s.setLatch k).vblankSeen = s.vblankSeen := rfl
@[simp] theorem State.setLatch_halt : (s.setLatch k).halt = s.halt := rfl
@[simp] theorem State.setLatch_status : (s.setLatch k).status = s.status := rfl
@[simp] theorem State.setLatch_draws : (s.setLatch k).draws = s.draws := rfl
@[simp] theorem State.setLatch_getV (y : RegIx) : (s.setLatch k).getV y = s.getV y := rfl
@[simp] theorem State.setLatch_readByte (a' : Addr) : (s.setLatch k).readByte a' = s.readByte a' := rfl
@[simp] theorem State.setLatch_readWord (a' : Addr) : (s.setLatch k).readWord a' = s.readWord a' := rfl
@[simp] theorem State.setLatch_fetchWord : (s.setLatch k).fetchWord = s.fetchWord := rfl
@[simp] theorem State.setLatch_iAddr : (s.setLatch k).iAddr = s.iAddr := rfl
@[simp] theorem State.setLatch_indexed (j : Nat) : (s.setLatch k).indexed j = s.indexed j := rfl
@[simp] theorem State.setLatch_sp : (s.setLatch k).sp = s.sp := rfl
@[simp] theorem State.setLatch_pix (c r' : Nat) : (s.setLatch k).pix c r' = s.pix c r' := rfl
@[simp] theorem State.setLatch_keyHeld (k' : Key) : (s.setLatch k).keyHeld k' = s.keyHeld k' := rfl
@[simp] theorem State.setLatch_instrAddr : (s.setLatch k).instrAddr = s.instrAddr := rfl

end

/-! ### setVblankSeen -/

section
variable (s : State) (b : Bool)

@[simp] theorem State.setVblankSeen_cfg : (s.setVblankSeen b).cfg = s.cfg := rfl
@[simp] theorem State.setVblankSeen_v : (s.setVblankSeen b).v = s.v := rfl
@[simp] theorem State.setVblankSeen_i : (s.setVblankSeen b).i = s.i := rfl
@[simp] theorem State.setVblankSeen_pc : (s.setVblankSeen b).pc = s.pc := rfl
@[simp] theorem State.setVblankSeen_stack : (s.setVblankSeen b).stack = s.stack := rfl
@[simp] theorem State.setVblankSeen_dt : (s.setVblankSeen b).dt = s.dt := rfl
@[simp] theorem State.setVblankSeen_st : (s.setVblankSeen b).st = s.st := rfl
@[simp] theorem State.setVblankSeen_mem : (s.setVblankSeen b).mem = s.mem := rfl
@[simp] theorem State.setVblankSeen_display : (s.setVblankSeen b).display = s.display := rfl
@[simp] theorem State.setVblankSeen_keys : (s.setVblankSeen b).keys = s.keys := rfl
@[simp] theorem State.setVblankSeen_latch : (s.setVblankSeen b).latch = s.latch := rfl
@[simp] theorem State.setVblankSeen_vblankSeen : (s.setVblankSeen b).vblankSeen = b := rfl
@[simp] theorem State.setVblankSeen_halt : (s.setVblankSeen b).halt = s.halt := rfl
@[simp] theorem State.setVblankSeen_status : (s.setVblankSeen b).status = s.status := rfl
@[simp] theorem State.setVblankSeen_draws : (s.setVblankSeen b).draws = s.draws := rfl
@[simp] theorem State.setVblankSeen_getV (y : RegIx) : (s.setVblankSeen b).getV y = s.getV y := rfl
@[simp] theorem State.setVblankSeen_readByte (a' : Addr) : (s.setVblankSeen b).readByte a' = s.readByte a' := rfl
@[simp] theorem State.setVblankSeen_readWord (a' : Addr) : (s.setVblankSeen b).readWord a' = s.readWord a' := rfl
@[simp] theorem State.setVblankSeen_fetchWord : (s.setVblankSeen b).fetchWord = s.fetchWord := rfl
@[simp] theorem State.setVblankSeen_iAddr : (s.setVblankSeen b).iAddr = s.iAddr := rfl
@[simp] theorem State.setVblankSeen_indexed (j : Nat) : (s.setVblankSeen b).indexed j = s.indexed j := rfl
@[simp] theorem State.setVblankSeen_sp : (s.setVblankSeen b).sp = s.sp := rfl
@[simp] theorem State.setVblankSeen_pix (c r' : Nat) : (s.setVblankSeen b).pix c r' = s.pix c r' := rfl
@[simp] theorem State.setVblankSeen_keyHeld (k' : Key) : (s.setVblankSeen b).keyHeld k' = s.keyHeld k' := rfl
@[simp] theorem State.setVblankSeen_instrAddr : (s.setVblankSeen b).instrAddr = s.instrAddr := rfl

end

/-! ### setHalt -/

section
variable (s : State) (h : Option FaultRecord)

@[simp] theorem State.setHalt_cfg : (s.setHalt h).cfg = s.cfg := rfl
@[simp] theorem State.setHalt_v : (s.setHalt h).v = s.v := rfl
@[simp] theorem State.setHalt_i : (s.setHalt h).i = s.i := rfl
@[simp] theorem State.setHalt_pc : (s.setHalt h).pc = s.pc := rfl
@[simp] theorem State.setHalt_stack : (s.setHalt h).stack = s.stack := rfl
@[simp] theorem State.setHalt_dt : (s.setHalt h).dt = s.dt := rfl
@[simp] theorem State.setHalt_st : (s.setHalt h).st = s.st := rfl
@[simp] theorem State.setHalt_mem : (s.setHalt h).mem = s.mem := rfl
@[simp] theorem State.setHalt_display : (s.setHalt h).display = s.display := rfl
@[simp] theorem State.setHalt_keys : (s.setHalt h).keys = s.keys := rfl
@[simp] theorem State.setHalt_latch : (s.setHalt h).latch = s.latch := rfl
@[simp] theorem State.setHalt_vblankSeen : (s.setHalt h).vblankSeen = s.vblankSeen := rfl
@[simp] theorem State.setHalt_halt : (s.setHalt h).halt = h := rfl
@[simp] theorem State.setHalt_status : (s.setHalt h).status = s.status := rfl
@[simp] theorem State.setHalt_draws : (s.setHalt h).draws = s.draws := rfl
@[simp] theorem State.setHalt_getV (y : RegIx) : (s.setHalt h).getV y = s.getV y := rfl
@[simp] theorem State.setHalt_readByte (a' : Addr) : (s.setHalt h).readByte a' = s.readByte a' := rfl
@[simp] theorem State.setHalt_readWord (a' : Addr) : (s.setHalt h).readWord a' = s.readWord a' := rfl
@[simp] theorem State.setHalt_fetchWord : (s.setHalt h).fetchWord = s.fetchWord := rfl
@[simp] theorem State.setHalt_iAddr : (s.setHalt h).iAddr = s.iAddr := rfl
@[simp] theorem State.setHalt_indexed (j : Nat) : (s.setHalt h).indexed j = s.indexed j := rfl
@[simp] theorem State.setHalt_sp : (s.setHalt h).sp = s.sp := rfl
@[simp] theorem State.setHalt_pix (c r' : Nat) : (s.setHalt h).pix c r' = s.pix c r' := rfl
@[simp] theorem State.setHalt_keyHeld (k' : Key) : (s.setHalt h).keyHeld k' = s.keyHeld k' := rfl
@[simp] theorem State.setHalt_instrAddr : (s.setHalt h).instrAddr = s.instrAddr := rfl

end

/-! ### setStatus -/

section
variable (s : State) (r : Status)

@[simp] theorem State.setStatus_cfg : (s.setStatus r).cfg = s.cfg := rfl
@[simp] theorem State.setStatus_v : (s.setStatus r).v = s.v := rfl
@[simp] theorem State.setStatus_i : (s.setStatus r).i = s.i := rfl
@[simp] theorem State.setStatus_pc : (s.setStatus r).pc = s.pc := rfl
@[simp] theorem State.setStatus_stack : (s.setStatus r).stack = s.stack := rfl
@[simp] theorem State.setStatus_dt : (s.setStatus r).dt = s.dt := rfl
@[simp] theorem State.setStatus_st : (s.setStatus r).st = s.st := rfl
@[simp] theorem State.setStatus_mem : (s.setStatus r).mem = s.mem := rfl
@[simp] theorem State.setStatus_display : (s.setStatus r).display = s.display := rfl
@[simp] theorem State.setStatus_keys : (s.setStatus r).keys = s.keys := rfl
@[simp] theorem State.setStatus_latch : (s.setStatus r).latch = s.latch := rfl
@[simp] theorem State.setStatus_vblankSeen : (s.setStatus r).vblankSeen = s.vblankSeen := rfl
@[simp] theorem State.setStatus_halt : (s.setStatus r).halt = s.halt := rfl
@[simp] theorem State.setStatus_status : (s.setStatus r).status = some r := rfl
@[simp] theorem State.setStatus_draws : (s.setStatus r).draws = s.draws := rfl
@[simp] theorem State.setStatus_getV (y : RegIx) : (s.setStatus r).getV y = s.getV y := rfl
@[simp] theorem State.setStatus_readByte (a' : Addr) : (s.setStatus r).readByte a' = s.readByte a' := rfl
@[simp] theorem State.setStatus_readWord (a' : Addr) : (s.setStatus r).readWord a' = s.readWord a' := rfl
@[simp] theorem State.setStatus_fetchWord : (s.setStatus r).fetchWord = s.fetchWord := rfl
@[simp] theorem State.setStatus_iAddr : (s.setStatus r).iAddr = s.iAddr := rfl
@[simp] theorem State.setStatus_indexed (j : Nat) : (s.setStatus r).indexed j = s.indexed j := rfl
@[simp] theorem State.setStatus_sp : (s.setStatus r).sp = s.sp := rfl
@[simp] theorem State.setStatus_pix (c r' : Nat) : (s.setStatus r).pix c r' = s.pix c r' := rfl
@[simp] theorem State.setStatus_keyHeld (k' : Key) : (s.setStatus r).keyHeld k' = s.keyHeld k' := rfl
@[simp] theorem State.setStatus_instrAddr : (s.setStatus r).instrAddr = s.instrAddr := rfl

end

/-! ### setDraws -/

section
variable (s : State) (n : Nat)

@[simp] theorem State.setDraws_cfg : (s.setDraws n).cfg = s.cfg := rfl
@[simp] theorem State.setDraws_v : (s.setDraws n).v = s.v := rfl
@[simp] theorem State.setDraws_i : (s.setDraws n).i = s.i := rfl
@[simp] theorem State.setDraws_pc : (s.setDraws n).pc = s.pc := rfl
@[simp] theorem State.setDraws_stack : (s.setDraws n).stack = s.stack := rfl
@[simp] theorem State.setDraws_dt : (s.setDraws n).dt = s.dt := rfl
@[simp] theorem State.setDraws_st : (s.setDraws n).st = s.st := rfl
@[simp] theorem State.setDraws_mem : (s.setDraws n).mem = s.mem := rfl
@[simp] theorem State.setDraws_display : (s.setDraws n).display = s.display := rfl
@[simp] theorem State.setDraws_keys : (s.setDraws n).keys = s.keys := rfl
@[simp] theorem State.setDraws_latch : (s.setDraws n).latch = s.latch := rfl
@[simp] theorem State.setDraws_vblankSeen : (s.setDraws n).vblankSeen = s.vblankSeen := rfl
@[simp] theorem State.setDraws_halt : (s.setDraws n).halt = s.halt := rfl
@[simp] theorem State.setDraws_status : (s.setDraws n).status = s.status := rfl
@[simp] theorem State.setDraws_draws : (s.setDraws n).draws = n := rfl
@[simp] theorem State.setDraws_getV (y : RegIx) : (s.setDraws n).getV y = s.getV y := rfl
@[simp] theorem State.setDraws_readByte (a' : Addr) : (s.setDraws n).readByte a' = s.readByte a' := rfl
@[simp] theorem State.setDraws_readWord (a' : Addr) : (s.setDraws n).readWord a' = s.readWord a' := rfl
@[simp] theorem State.setDraws_fetchWord : (s.setDraws n).fetchWord = s.fetchWord := rfl
@[simp] theorem State.setDraws_iAddr : (s.setDraws n).iAddr = s.iAddr := rfl
@[simp] theorem State.setDraws_indexed (j : Nat) : (s.setDraws n).indexed j = s.indexed j := rfl
@[simp] theorem State.setDraws_sp : (s.setDraws n).sp = s.sp := rfl
@[simp] theorem State.setDraws_pix (c r' : Nat) : (s.setDraws n).pix c r' = s.pix c r' := rfl
@[simp] theorem State.setDraws_keyHeld (k' : Key) : (s.setDraws n).keyHeld k' = s.keyHeld k' := rfl
@[simp] theorem State.setDraws_instrAddr : (s.setDraws n).instrAddr = s.instrAddr := rfl

end

/-! ### Reads of the field an update writes -/

@[simp] theorem State.getV_setV_same (s : State) (x : RegIx) (b : Byte) : (s.setV x b).getV x = b := by
  simp [State.getV, State.setV]

@[simp] theorem State.getV_setV_other (s : State) {x y : RegIx} (b : Byte) (h : x ≠ y) :
    (s.setV x b).getV y = s.getV y := by
  have : x.toNat ≠ y.toNat := fun e => h (BitVec.eq_of_toNat_eq e)
  simp [State.getV, State.setV, this]

theorem State.getV_setV (s : State) (x y : RegIx) (b : Byte) :
    (s.setV x b).getV y = if x = y then b else s.getV y := by
  split
  · next h => subst h; simp
  · next h => simp [h]

@[simp] theorem State.setStack_sp (s : State) (l : List Addr) : (s.setStack l).sp = l.length := rfl

@[simp] theorem State.setPc_instrAddr (s : State) (a : Addr) : (s.setPc a).instrAddr = a - 2#12 := rfl

@[simp] theorem State.setDisplay_pix (s : State) (d : List (List Bool)) (c r : Nat) :
    (s.setDisplay d).pix c r = Display.pix d c r := rfl

/-! ### Updates that follow one another -/

@[simp] theorem State.setStatus_setStatus (s : State) (q r : Status) : (s.setStatus q).setStatus r = s.setStatus r := rfl

@[simp] theorem State.setPc_setPc (s : State) (a b : Addr) : (s.setPc a).setPc b = s.setPc b := rfl

@[simp] theorem State.setLatch_setLatch (s : State) (k l : Option Key) : (s.setLatch k).setLatch l = s.setLatch l := rfl

@[simp] theorem State.setVblankSeen_setVblankSeen (s : State) (a b : Bool) :
    (s.setVblankSeen a).setVblankSeen b = s.setVblankSeen b := rfl

end Sys2Proof.Machine
end

