-- ==== Sys2Proof/Laws/Memory.lean ====
section
/-! SUPPORT. The laws of memory: a byte written is read back, every other byte is left alone, the font never changes, and
every memory operation keeps the canonical form. -/

namespace Sys2Proof.Machine

/-! ### The list of cells -/

theorem Memory.lookup_insert_same (m : List Host.Cell) (a : Nat) (x : Byte) :
    Memory.lookup (Memory.insert m a x) a = some x := by
  induction m with
  | nil => simp [Memory.insert, Memory.lookup]
  | cons c rest ih =>
    obtain ⟨b, u⟩ := c
    simp only [Memory.insert]
    split_ifs with h1 h2
    · simp [Memory.lookup]
    · simp [Memory.lookup]
    · have : b ≠ a := fun e => h2 e.symm
      simpa [Memory.lookup, this] using ih

theorem Memory.lookup_insert_other (m : List Host.Cell) {a b : Nat} (x : Byte) (h : b ≠ a) :
    Memory.lookup (Memory.insert m a x) b = Memory.lookup m b := by
  induction m with
  | nil => simp [Memory.insert, Memory.lookup, h.symm]
  | cons c rest ih =>
    obtain ⟨d, u⟩ := c
    simp only [Memory.insert]
    split_ifs with h1 h2
    · simp [Memory.lookup, h.symm]
    · subst h2
      simp [Memory.lookup, h.symm]
    · simp [Memory.lookup, ih]

theorem Memory.lookup_filter (m : List Host.Cell) (p : Nat → Bool) (a : Nat) :
    Memory.lookup (m.filter (fun c => p c.1)) a = if p a then Memory.lookup m a else none := by
  induction m with
  | nil => simp [Memory.lookup]
  | cons c rest ih =>
    obtain ⟨b, u⟩ := c
    by_cases hb : b = a
    · subst hb
      by_cases hp : p b <;> simp [hp, Memory.lookup, ih]
    · by_cases hp : p b <;> simp [hp, Memory.lookup, ih, hb]

/-- A byte written is the byte looked up, a zero byte being unlisted. -/
theorem Memory.lookup_write_same (m : List Host.Cell) (a : Nat) (x : Byte) :
    (Memory.lookup (Memory.write m a x) a).getD 0#8 = x := by
  unfold Memory.write
  split_ifs with h
  · have := Memory.lookup_filter m (fun b => decide (b ≠ a)) a
    simp_all
  · simp [Memory.lookup_insert_same]

theorem Memory.lookup_write_other (m : List Host.Cell) {a b : Nat} (x : Byte) (h : b ≠ a) :
    Memory.lookup (Memory.write m a x) b = Memory.lookup m b := by
  unfold Memory.write
  split_ifs with hx
  · have := Memory.lookup_filter m (fun c => decide (c ≠ a)) b
    simp_all
  · exact Memory.lookup_insert_other m x h

theorem Memory.mem_insert {m : List Host.Cell} {a : Nat} {x : Byte} {c : Host.Cell}
    (h : c ∈ Memory.insert m a x) : c = (a, x) ∨ c ∈ m := by
  induction m with
  | nil => simpa [Memory.insert] using h
  | cons d rest ih =>
    obtain ⟨b, u⟩ := d
    simp only [Memory.insert] at h
    split_ifs at h <;> simp only [List.mem_cons] at h ⊢ <;> tauto

theorem Memory.insert_rising {m : List Host.Cell} (h : m.Pairwise (fun c d => c.1 < d.1)) (a : Nat) (x : Byte) :
    (Memory.insert m a x).Pairwise (fun c d => c.1 < d.1) := by
  induction m with
  | nil => simp [Memory.insert]
  | cons d rest ih =>
    obtain ⟨b, u⟩ := d
    obtain ⟨hb, hrest⟩ := List.pairwise_cons.mp h
    simp only [Memory.insert]
    split_ifs with h1 h2
    · refine List.pairwise_cons.mpr ⟨fun c hc => ?_, h⟩
      rcases List.mem_cons.mp hc with rfl | hc
      · exact h1
      · exact h1.trans (hb c hc)
    · subst h2
      exact List.pairwise_cons.mpr ⟨hb, hrest⟩
    · refine List.pairwise_cons.mpr ⟨fun c hc => ?_, ih hrest⟩
      rcases Memory.mem_insert hc with rfl | hc
      · show b < a
        omega
      · exact hb c hc

/-- Writing a byte outside the font keeps the canonical form. -/
theorem Memory.wf_write {m : List Host.Cell} (h : Memory.wf m) {a : Nat} (x : Byte) (ha : 0x050 ≤ a) (ha' : a < 0x1000) :
    Memory.wf (Memory.write m a x) := by
  unfold Memory.write
  split_ifs with hx
  · exact ⟨h.1.filter _, fun c hc => h.2 c (List.mem_filter.mp hc).1⟩
  · refine ⟨Memory.insert_rising h.1 a x, fun c hc => ?_⟩
    rcases Memory.mem_insert hc with rfl | hc
    · exact ⟨ha, ha', hx⟩
    · exact h.2 c hc

/-! ### One byte of the machine's memory -/

/-- The font cells read as `FONT`, whatever memory lists (20_memory.md R52). -/
theorem State.readByte_font (s : State) (a : Addr) (h : a.toNat < 80) : s.readByte a = s.cfg.font[a.toNat] := by
  simp [State.readByte, fontCell, Memory.unlisted, h]

theorem State.readByte_ram (s : State) (a : Addr) (h : ¬ a.toNat < 80) :
    s.readByte a = (Memory.lookup s.mem a.toNat).getD 0#8 := by
  simp [State.readByte, fontCell, Memory.unlisted, h]

theorem State.writeByte_font (s : State) (a : Addr) (x : Byte) (h : a.toNat < 80) : s.writeByte a x = s := by
  simp [State.writeByte, fontCell, h]

theorem State.readByte_writeByte_same (s : State) (a : Addr) (x : Byte) (h : ¬ a.toNat < 80) :
    (s.writeByte a x).readByte a = x := by
  rw [State.readByte_ram _ _ h]
  simp [State.writeByte, fontCell, h, Memory.lookup_write_same]

theorem State.readByte_writeByte_other (s : State) {a b : Addr} (x : Byte) (h : b ≠ a) :
    (s.writeByte a x).readByte b = s.readByte b := by
  by_cases ha : a.toNat < 80
  · rw [State.writeByte_font s a x ha]
  · have hn : b.toNat ≠ a.toNat := fun e => h (BitVec.eq_of_toNat_eq e)
    simp [State.writeByte, fontCell, ha, State.readByte, Memory.lookup_write_other _ x hn]

/-- A write changes the memory list only. -/
theorem State.writeByte_frame (s : State) (a : Addr) (x : Byte) : ∃ m, s.writeByte a x = s.setMem m := by
  unfold State.writeByte
  split
  · exact ⟨s.mem, rfl⟩
  · exact ⟨_, rfl⟩

theorem State.writeByte_wf (s : State) (a : Addr) (x : Byte) (h : Memory.wf s.mem) :
    Memory.wf (s.writeByte a x).mem := by
  by_cases ha : a.toNat < 80
  · rwa [State.writeByte_font s a x ha]
  · have : (s.writeByte a x).mem = Memory.write s.mem a.toNat x := by simp [State.writeByte, fontCell, ha]
    rw [this]
    exact Memory.wf_write h x (by omega) a.isLt

/-! ### Several bytes -/

/-- The address after `k + 1` bytes is that after one and then `k` more. -/
theorem addr_succ (a : Addr) (k : Nat) : a + BitVec.ofNat 12 (k + 1) = a + 1#12 + BitVec.ofNat 12 k := by
  apply BitVec.eq_of_toNat_eq
  simp only [BitVec.toNat_add, BitVec.toNat_ofNat]
  omega

/-- An address and one up to 4095 further on differ. -/
theorem addr_ne_succ (a : Addr) {k : Nat} (h : k + 1 < 4096) : a ≠ a + 1#12 + BitVec.ofNat 12 k := by
  intro e
  have := congrArg BitVec.toNat e
  simp only [BitVec.toNat_add, BitVec.toNat_ofNat] at this
  have := a.isLt
  omega

/-- A store of several bytes changes the memory list only. -/
theorem State.writeBytes_frame (s : State) (a : Addr) (l : List Byte) : ∃ m, s.writeBytes a l = s.setMem m := by
  induction l generalizing s a with
  | nil => exact ⟨s.mem, rfl⟩
  | cons x rest ih =>
    obtain ⟨m, hm⟩ := s.writeByte_frame a x
    obtain ⟨m', hm'⟩ := ih (s.writeByte a x) (a + 1#12)
    exact ⟨m', by rw [State.writeBytes, hm', hm]; rfl⟩

theorem State.writeBytes_wf (s : State) (a : Addr) (l : List Byte) (h : Memory.wf s.mem) :
    Memory.wf (s.writeBytes a l).mem := by
  induction l generalizing s a with
  | nil => exact h
  | cons x rest ih => exact ih _ _ (s.writeByte_wf a x h)

/-- A byte at none of the stored addresses is left alone. -/
theorem State.readByte_writeBytes_other (s : State) (a b : Addr) (l : List Byte)
    (h : ∀ k, k < l.length → b ≠ a + BitVec.ofNat 12 k) : (s.writeBytes a l).readByte b = s.readByte b := by
  induction l generalizing s a with
  | nil => rfl
  | cons x rest ih =>
    have h0 : b ≠ a := by simpa using h 0 (by simp)
    rw [State.writeBytes, ih, State.readByte_writeByte_other s x h0]
    intro k hk
    have := h (k + 1) (by simpa using hk)
    rwa [addr_succ] at this

/-- A stored byte is read back, a font cell keeping its byte; the addresses of one store are distinct (20_memory.md R58). -/
theorem State.readByte_writeBytes_same (s : State) (a : Addr) (l : List Byte) (hl : l.length ≤ 4096) (k : Nat)
    (hk : k < l.length) :
    (s.writeBytes a l).readByte (a + BitVec.ofNat 12 k) =
      if (a + BitVec.ofNat 12 k).toNat < 80 then s.readByte (a + BitVec.ofNat 12 k) else l[k] := by
  induction l generalizing s a k with
  | nil => simp at hk
  | cons x rest ih =>
    have hr : rest.length + 1 ≤ 4096 := by simpa using hl
    cases k with
    | zero =>
      have hother : ∀ j, j < rest.length → a ≠ a + 1#12 + BitVec.ofNat 12 j := fun j hj => addr_ne_succ a (by omega)
      simp only [State.writeBytes, BitVec.add_zero, List.getElem_cons_zero]
      rw [State.readByte_writeBytes_other _ _ _ _ hother]
      split_ifs with ha
      · rw [State.writeByte_font s a x ha]
      · exact State.readByte_writeByte_same s a x ha
    | succ k =>
      have hk' : k < rest.length := by simpa using hk
      have hne : a + 1#12 + BitVec.ofNat 12 k ≠ a := (addr_ne_succ a (by omega)).symm
      rw [addr_succ, State.writeBytes, ih (s.writeByte a x) (a + 1#12) (by omega) k hk', List.getElem_cons_succ,
        State.readByte_writeByte_other s x hne]

/-! ### Reset and load -/

theorem State.reset_memory_wf : Memory.wf State.reset.mem :=
  ⟨List.Pairwise.nil, fun _ h => absurd h (List.not_mem_nil)⟩

theorem romCells_range (a : Nat) (rom : List Byte) :
    (romCells a rom).Pairwise (fun c d => c.1 < d.1) ∧
      ∀ c ∈ romCells a rom, a ≤ c.1 ∧ c.1 < a + rom.length ∧ c.2 ≠ 0 := by
  induction rom generalizing a with
  | nil => simp [romCells]
  | cons x rest ih =>
    obtain ⟨hp, hm⟩ := ih (a + 1)
    have hm' : ∀ c ∈ romCells (a + 1) rest, a < c.1 ∧ c.1 < a + (x :: rest).length ∧ c.2 ≠ 0 := by
      intro c hc
      obtain ⟨h1, h2, h3⟩ := hm c hc
      exact ⟨by omega, by simp only [List.length_cons]; omega, h3⟩
    simp only [romCells]
    split_ifs with hx
    · exact ⟨hp, fun c hc => ⟨(hm' c hc).1.le, (hm' c hc).2⟩⟩
    · refine ⟨List.pairwise_cons.mpr ⟨fun c hc => (hm' c hc).1, hp⟩, fun c hc => ?_⟩
      rcases List.mem_cons.mp hc with rfl | hc
      · exact ⟨le_refl _, by simp, hx⟩
      · exact ⟨(hm' c hc).1.le, (hm' c hc).2⟩

theorem lookup_romCells (a : Nat) (rom : List Byte) (k : Nat) :
    (Memory.lookup (romCells a rom) (a + k)).getD 0#8 = rom.getD k 0#8 := by
  induction rom generalizing a k with
  | nil => simp [romCells, Memory.lookup]
  | cons x rest ih =>
    have none_below : Memory.lookup (romCells (a + 1) rest) a = none := by
      have hm := (romCells_range (a + 1) rest).2
      generalize romCells (a + 1) rest = m at hm
      induction m with
      | nil => rfl
      | cons c m ihm =>
        have := hm c (by simp)
        have hne : c.1 ≠ a := by omega
        simp only [Memory.lookup, hne, if_false]
        exact ihm (fun d hd => hm d (by simp [hd]))
    cases k with
    | zero => by_cases hx : x = 0#8 <;> simp [romCells, hx, Memory.lookup, none_below]
    | succ k =>
      have := ih (a + 1) k
      rw [show a + 1 + k = a + (k + 1) by omega] at this
      by_cases hx : x = 0#8 <;> simpa [romCells, hx, Memory.lookup] using this

theorem Memory.lookup_append (m m' : List Host.Cell) (a : Nat) :
    Memory.lookup (m ++ m') a = (Memory.lookup m a).or (Memory.lookup m' a) := by
  induction m with
  | nil => simp [Memory.lookup]
  | cons c rest ih =>
    obtain ⟨b, u⟩ := c
    by_cases h : b = a <;> simp [Memory.lookup, h, ih]

/-- A load that fits keeps the canonical form. -/
theorem Memory.wf_loaded {m : List Host.Cell} (h : Memory.wf m) (rom : List Byte) (hr : rom.length ≤ romMax) :
    Memory.wf (Memory.loaded m rom) := by
  have ⟨hp, hm⟩ := romCells_range 0x200 rom
  have hr' : rom.length ≤ 3584 := hr
  have below : ∀ c ∈ m.filter (fun c => decide (c.1 < 0x200)), c ∈ m ∧ c.1 < 0x200 := by
    intro c hc
    have := List.mem_filter.mp hc
    exact ⟨this.1, by simpa using this.2⟩
  refine ⟨List.pairwise_append.mpr ⟨h.1.filter _, hp, fun c hc d hd => ?_⟩, fun c hc => ?_⟩
  · exact lt_of_lt_of_le (below c hc).2 (hm d hd).1
  · rcases List.mem_append.mp hc with hc | hc
    · exact h.2 c (below c hc).1
    · obtain ⟨h1, h2, h3⟩ := hm c hc
      exact ⟨by omega, by omega, h3⟩

/-- Below the first address of its cells a list has no entry. -/
theorem Memory.lookup_below {m : List Host.Cell} {a : Nat} (h : ∀ c ∈ m, a < c.1) : Memory.lookup m a = none := by
  induction m with
  | nil => rfl
  | cons c rest ih =>
    have hne : c.1 ≠ a := by
      have := h c (by simp)
      omega
    simp only [Memory.lookup, hne, if_false]
    exact ih (fun d hd => h d (by simp [hd]))

/-- A byte after a load (70_reset_and_hazards.md R172). -/
theorem State.readByte_loaded (s : State) (rom : List Byte) (a : Addr) :
    (s.loaded rom).readByte a = if a.toNat < 0x200 then s.readByte a else rom.getD (a.toNat - 0x200) 0#8 := by
  by_cases ha : a.toNat < 80
  · rw [State.readByte_font _ _ ha, if_pos (by omega), State.readByte_font _ _ ha]
    rfl
  · rw [State.readByte_ram _ _ ha]
    have hf := Memory.lookup_filter s.mem (fun b => decide (b < 0x200)) a.toNat
    show (Memory.lookup (Memory.loaded s.mem rom) a.toNat).getD 0#8 = _
    rw [Memory.loaded, Memory.lookup_append, hf]
    by_cases hb : a.toNat < 0x200
    · have hn : Memory.lookup (romCells 0x200 rom) a.toNat = none :=
        Memory.lookup_below (fun c hc => lt_of_lt_of_le hb ((romCells_range 0x200 rom).2 c hc).1)
      simp [hb, hn, State.readByte_ram _ _ ha]
    · have := lookup_romCells 0x200 rom (a.toNat - 0x200)
      rw [show 0x200 + (a.toNat - 0x200) = a.toNat by omega] at this
      simpa [hb] using this

end Sys2Proof.Machine
end

