-- ==== Sys2Proof/Laws/Frames.lean ====
section
/-! SUPPORT. What each update, and each way an instruction ends, leaves unchanged, in the terms claims use (`SameExcept`). -/

namespace Sys2Proof.Machine

/-! ### The relation itself -/

theorem SameExcept.refl (w : List Part) (s : State) : SameExcept w s s := by
  intro p _
  cases p <;> rfl

theorem SameExcept.mono {w w' : List Part} {s t : State} (h : SameExcept w s t) (hw : w ⊆ w') : SameExcept w' s t :=
  fun p hp => h p (fun hm => hp (hw hm))

theorem Part.Same.trans {p : Part} {s t u : State} (h : p.Same s t) (h' : p.Same t u) : p.Same s u := by
  cases p <;> exact Eq.trans h' h

theorem Part.Same.symm {p : Part} {s t : State} (h : p.Same s t) : p.Same t s := by
  cases p <;> exact Eq.symm h

theorem SameExcept.trans {w : List Part} {s t u : State} (h : SameExcept w s t) (h' : SameExcept w t u) :
    SameExcept w s u :=
  fun p hp => (h p hp).trans (h' p hp)

theorem SameExcept.append {w w' : List Part} {s t u : State} (h : SameExcept w s t) (h' : SameExcept w' t u) :
    SameExcept (w ++ w') s u :=
  (h.mono (List.subset_append_left w w')).trans (h'.mono (List.subset_append_right w w'))

/-! ### The updates -/

theorem State.setV_same (s : State) (x : RegIx) (b : Byte) : SameExcept [.reg x] s (s.setV x b) := by
  intro p hp
  cases p with
  | reg y => exact s.getV_setV_other b (fun e => hp (by simp [e]))
  | _ => rfl

theorem State.setI_same (s : State) (n : BitVec 16) : SameExcept [.index] s (s.setI n) := by
  intro p hp
  cases p <;> first | rfl | exact absurd (by simp) hp

theorem State.setPc_same (s : State) (a : Addr) : SameExcept [] s (s.setPc a) := by
  intro p _
  cases p <;> rfl

theorem State.setStatus_same (s : State) (r : Status) : SameExcept [] s (s.setStatus r) := by
  intro p _
  cases p <;> rfl

theorem State.setStack_same (s : State) (l : List Addr) : SameExcept [.stack] s (s.setStack l) := by
  intro p hp
  cases p <;> first | rfl | exact absurd (by simp) hp

theorem State.setDt_same (s : State) (b : Byte) : SameExcept [.delayTimer] s (s.setDt b) := by
  intro p hp
  cases p <;> first | rfl | exact absurd (by simp) hp

theorem State.setSt_same (s : State) (b : Byte) : SameExcept [.soundTimer] s (s.setSt b) := by
  intro p hp
  cases p <;> first | rfl | exact absurd (by simp) hp

theorem State.setKeys_same (s : State) (k : Vector Bool 16) : SameExcept [.keys] s (s.setKeys k) := by
  intro p hp
  cases p <;> first | rfl | exact absurd (by simp) hp

theorem State.setLatch_same (s : State) (k : Option Key) : SameExcept [.latch] s (s.setLatch k) := by
  intro p hp
  cases p <;> first | rfl | exact absurd (by simp) hp

theorem State.setVblankSeen_same (s : State) (b : Bool) : SameExcept [.vblankSeen] s (s.setVblankSeen b) := by
  intro p hp
  cases p <;> first | rfl | exact absurd (by simp) hp

theorem State.setHalt_same (s : State) (h : Option FaultRecord) : SameExcept [.halt] s (s.setHalt h) := by
  intro p hp
  cases p <;> first | rfl | exact absurd (by simp) hp

theorem State.setDraws_same (s : State) (n : Nat) : SameExcept [.draws] s (s.setDraws n) := by
  intro p hp
  cases p <;> first | rfl | exact absurd (by simp) hp

/-- A new display changes pixels only. -/
theorem State.setDisplay_same (s : State) (d : List (List Bool)) :
    SameOutside (fun p => ∃ c r, p = .pixel c r) s (s.setDisplay d) := by
  intro p hp
  cases p <;> first | rfl | exact absurd ⟨_, _, rfl⟩ hp

/-- A store of several bytes changes the stored bytes only. -/
theorem State.writeBytes_same (s : State) (l : List Byte) :
    SameExcept (s.storedParts l.length) s (s.writeBytes s.iAddr l) := by
  intro p hp
  cases p with
  | byte a =>
    refine s.readByte_writeBytes_other s.iAddr a l (fun k hk e => hp ?_)
    exact List.mem_map.mpr ⟨k, List.mem_range.mpr hk, by rw [e]; rfl⟩
  | _ =>
    obtain ⟨m, hm⟩ := s.writeBytes_frame s.iAddr l
    rw [hm]
    rfl

/-! ### How an instruction ends -/

@[simp] theorem State.complete_status (s : State) : s.complete.status = some .completed := rfl

@[simp] theorem State.complete_pc (s : State) : s.complete.pc = s.pc := rfl

theorem State.complete_same (s : State) : SameExcept [] s s.complete := s.setStatus_same _

/-- Completing an instruction that wrote only the listed parts. -/
theorem SameExcept.complete {w : List Part} {s t : State} (h : SameExcept w s t) : CompletedExcept w s t.complete :=
  ⟨rfl, h.trans (t.complete_same.mono (List.nil_subset w))⟩

/-- Everything that taking a fault does. -/
theorem State.raise_tookFault (s : State) (kind : FaultKind) : TookFault kind s (s.raise kind) :=
  ⟨rfl, rfl, rfl, (s.setHalt_same _).trans
    (((State.setStatus_same _ _).trans (State.setPc_same _ _)).mono (List.nil_subset _))⟩

/-- Everything that blocking an instruction does. -/
theorem State.block_blocked (s : State) (r : Status) : Blocked r s (s.block r) :=
  ⟨rfl, rfl, (s.setPc_same _).trans (State.setStatus_same _ _)⟩

theorem State.endStep_same (s : State) : SameExcept [.latch] s s.endStep := s.setLatch_same none

theorem State.advance_same (s : State) : SameExcept [] s s.advance := s.setPc_same _

/-- The instruction's address is where `PC` was before the advance of the fetch. -/
@[simp] theorem State.advance_instrAddr (s : State) : s.advance.pc - 2#12 = s.pc := by
  simp [State.advance]

theorem State.advance_word (s : State) : s.advance.readWord (s.advance.pc - 2#12) = s.fetchWord := by
  rw [State.advance_instrAddr]
  rfl

/-! ### The shared operations -/

theorem State.skipIf_same (s : State) (c : Bool) : SameExcept [] s (s.skipIf c) := by
  unfold State.skipIf
  split
  · exact s.setPc_same _
  · exact SameExcept.refl _ s

@[simp] theorem State.skipIf_pc (s : State) (c : Bool) : (s.skipIf c).pc = if c then s.pc + 2#12 else s.pc := by
  unfold State.skipIf
  split <;> rfl

theorem State.setVThenFlag_same (s : State) (x : RegIx) (b f : Byte) :
    SameExcept [.reg x, .reg vf] s (s.setVThenFlag x b f) :=
  (s.setV_same x b).append (State.setV_same _ vf f)

@[simp] theorem State.setVThenFlag_flag (s : State) (x : RegIx) (b f : Byte) : (s.setVThenFlag x b f).getV vf = f := by
  simp [State.setVThenFlag]

theorem State.setVThenFlag_result (s : State) {x : RegIx} (b f : Byte) (h : x ≠ vf) :
    (s.setVThenFlag x b f).getV x = b := by
  simp [State.setVThenFlag, h.symm]

@[simp] theorem State.setVThenFlag_pc (s : State) (x : RegIx) (b f : Byte) : (s.setVThenFlag x b f).pc = s.pc := rfl

theorem State.push_room (s : State) (a : Addr) (h : s.sp < s.cfg.stackDepth) :
    s.push a = some (s.setStack (a :: s.stack)) := by
  simp [State.push, Nat.not_le.mpr h]

theorem State.push_full (s : State) (a : Addr) (h : s.cfg.stackDepth ≤ s.sp) : s.push a = none := by
  simp [State.push, h]

theorem State.pop_cons {s : State} {a : Addr} {rest : List Addr} (h : s.stack = a :: rest) :
    s.pop = some (a, s.setStack rest) := by
  simp [State.pop, h]

theorem State.pop_nil {s : State} (h : s.stack = []) : s.pop = none := by
  simp [State.pop, h]

theorem State.tick_same (s : State) : SameExcept [.delayTimer, .soundTimer, .vblankSeen] s s.tick :=
  ((s.setDt_same _).append (State.setSt_same _ _)).append (State.setVblankSeen_same _ _)

theorem countDown_toNat (b : Byte) : (countDown b).toNat = b.toNat - 1 := by
  unfold countDown
  split_ifs with h
  · simp [h]
  · have : b.toNat ≠ 0 := fun e => h (BitVec.eq_of_toNat_eq (by simpa using e))
    have := b.isLt
    rw [BitVec.toNat_sub]
    simp
    omega

theorem State.setI_lt (s : State) (n : BitVec 16) : (s.setI n).i.toNat < 0x1000 := by
  have : n.toNat % 4096 < 4096 := Nat.mod_lt _ (by decide)
  simpa [State.setI] using this

theorem State.setI_toNat (s : State) (n : BitVec 16) : (s.setI n).i.toNat = n.toNat % 4096 := by
  simp [State.setI]

theorem State.stepIndex_same (s : State) (x : RegIx) : SameExcept [.index] s (s.stepIndex x) := by
  unfold State.stepIndex
  split
  · exact s.setI_same _
  · exact SameExcept.refl _ s

@[simp] theorem State.stepIndex_pc (s : State) (x : RegIx) : (s.stepIndex x).pc = s.pc := by
  unfold State.stepIndex
  split <;> rfl

theorem State.stepIndex_on (s : State) (x : RegIx) (h : s.cfg.quirks.memoryIncrement = true) :
    (s.stepIndex x).i.toNat = (s.i.toNat + x.toNat + 1) % 4096 := by
  simp only [State.stepIndex, h, if_true, State.setI_toNat, BitVec.toNat_add, BitVec.toNat_setWidth,
    BitVec.toNat_ofNat]
  omega

theorem State.stepIndex_off (s : State) (x : RegIx) (h : s.cfg.quirks.memoryIncrement = false) :
    s.stepIndex x = s := by
  simp [State.stepIndex, h]

/-- Loading registers changes the register file only, and a loaded register holds its byte. -/
theorem State.loadRegistersTo_spec (s : State) (x : RegIx) :
    (∃ file, s.loadRegistersTo x = { s with v := file }) ∧
      ∀ y : RegIx, (s.loadRegistersTo x).getV y =
        if y.toNat ≤ x.toNat then s.readByte (s.indexed y.toNat) else s.getV y := by
  have key : ∀ n, n ≤ 16 →
      (∃ file, (List.range n).foldl (fun t k => t.setV (BitVec.ofNat 4 k) (s.readByte (s.indexed k))) s
        = { s with v := file }) ∧
      ∀ y : RegIx, ((List.range n).foldl (fun t k => t.setV (BitVec.ofNat 4 k) (s.readByte (s.indexed k))) s).getV y =
        if y.toNat < n then s.readByte (s.indexed y.toNat) else s.getV y := by
    intro n
    induction n with
    | zero => exact fun _ => ⟨⟨s.v, rfl⟩, fun y => by simp⟩
    | succ n ih =>
      intro hn
      obtain ⟨⟨file, hf⟩, hv⟩ := ih (by omega)
      rw [List.range_succ, List.foldl_append, List.foldl_cons, List.foldl_nil]
      refine ⟨⟨_, by rw [hf]; rfl⟩, fun y => ?_⟩
      rw [State.getV_setV, hv]
      by_cases h : BitVec.ofNat 4 n = y
      · have : y.toNat = n := by rw [← h, BitVec.toNat_ofNat]; omega
        simp [h, this]
      · have : y.toNat ≠ n := fun e => h (by rw [← e]; simp)
        simp only [h, if_false]
        congr 1
        simp only [eq_iff_iff]
        omega
  obtain ⟨h1, h2⟩ := key (x.toNat + 1) (by have := x.isLt; omega)
  exact ⟨h1, fun y => by rw [State.loadRegistersTo, h2]; simp only [Nat.lt_succ_iff]⟩

theorem State.loadRegistersTo_same (s : State) (x : RegIx) : SameExcept (regsTo x) s (s.loadRegistersTo x) := by
  obtain ⟨⟨file, hf⟩, hv⟩ := s.loadRegistersTo_spec x
  intro p hp
  cases p with
  | reg y =>
    have : ¬ y.toNat ≤ x.toNat := fun h =>
      hp (List.mem_map.mpr ⟨y.toNat, List.mem_range.mpr (by omega), by simp⟩)
    exact (hv y).trans (by simp [this])
  | _ =>
    rw [hf]
    rfl

theorem State.storeFaults_iff (s : State) (count : Nat) :
    s.storeFaults count = true ↔ s.cfg.fontWrite = .fault ∧ ∃ k, k < count ∧ (s.indexed k).toNat < 80 := by
  simp [State.storeFaults, fontCell]

theorem State.registersTo_length (s : State) (x : RegIx) : (s.registersTo x).length = x.toNat + 1 := by
  simp [State.registersTo]

/-- The key a register value names, when it names one (44_timers_keys.md R137). -/
theorem keyIndex_some {policy : KeyPolicy} {b : Byte} {k : Key} (hk : k.toNat = b.toNat % 16)
    (h : b.toNat < 16 ∨ policy = .lowNibble) : keyIndex policy b = some k := by
  have e : b.setWidth 4 = k := by
    apply BitVec.eq_of_toNat_eq
    simp [hk]
  unfold keyIndex
  split
  · rw [e]
  · rcases h with h | rfl
    · omega
    · exact congrArg some e

theorem keyIndex_none {policy : KeyPolicy} {b : Byte} :
    keyIndex policy b = none ↔ 16 ≤ b.toNat ∧ policy = .fault := by
  unfold keyIndex
  split
  · simp
    omega
  · cases policy <;> simp
    omega

/-- What 8xy1 to 8xy3 do to the register file, with `vf_reset` on and off (42_alu.md R113). -/
theorem State.setVThenReset_on (s : State) (x : RegIx) (b : Byte) (h : s.cfg.quirks.vfReset = true) :
    s.setVThenReset x b = s.setVThenFlag x b 0#8 := by
  rw [State.setVThenReset, if_pos h]

theorem State.setVThenReset_off (s : State) (x : RegIx) (b : Byte) (h : s.cfg.quirks.vfReset = false) :
    s.setVThenReset x b = s.setV x b := by
  rw [State.setVThenReset, if_neg (by simp [h])]

/-- A skip writes `PC` only. -/
theorem State.skipIf_frame (s : State) (c : Bool) : ∃ a, s.skipIf c = s.setPc a := by
  unfold State.skipIf
  split
  · exact ⟨_, rfl⟩
  · exact ⟨s.pc, rfl⟩

/-- The index step writes `I` only. -/
theorem State.stepIndex_frame (s : State) (x : RegIx) : ∃ n, s.stepIndex x = { s with i := n } := by
  unfold State.stepIndex
  split
  · exact ⟨_, rfl⟩
  · exact ⟨s.i, rfl⟩

end Sys2Proof.Machine
end

