-- ==== Sys2Proof/Laws/Display.lean ====
section
/-! SUPPORT. The laws of the display: a pixel written is read back, the others are left alone, and every display operation
keeps the grid's shape. -/

namespace Sys2Proof.Machine

/-- A grid of `h` rows of `w` pixels. -/
def Display.Fits (d : List (List Bool)) (w h : Nat) : Prop := d.length = h ∧ ∀ row ∈ d, row.length = w

theorem Display.blank_fits (w h : Nat) : Display.Fits (Display.blank w h) w h :=
  ⟨by simp [Display.blank], fun _ hrow => by simp [List.eq_of_mem_replicate hrow]⟩

theorem Display.pix_blank (w h c r : Nat) : Display.pix (Display.blank w h) c r = false := by
  unfold Display.pix Display.blank
  by_cases hr : r < h
  · by_cases hc : c < w <;> simp [hr, hc]
  · simp [hr]

theorem Display.setPix_fits {d : List (List Bool)} {w h : Nat} (hd : Display.Fits d w h) (c r : Nat) (b : Bool) :
    Display.Fits (Display.setPix d c r b) w h := by
  refine ⟨by simpa [Display.setPix] using hd.1, fun row hrow => ?_⟩
  obtain ⟨k, hk, rfl⟩ := List.getElem_of_mem hrow
  simp only [Display.setPix, List.getElem_modify]
  split <;> simp [hd.2 _ (List.getElem_mem _)]

/-- A pixel of a fitting display in terms of its row and column. -/
theorem Display.pix_setPix {d : List (List Bool)} {w h : Nat} (hd : Display.Fits d w h) {c r : Nat} (hc : c < w)
    (hr : r < h) (b : Bool) (c' r' : Nat) :
    Display.pix (Display.setPix d c r b) c' r' = if c' = c ∧ r' = r then b else Display.pix d c' r' := by
  have hlen : r < d.length := by rw [hd.1]; exact hr
  have hrow : d[r].length = w := hd.2 _ (List.getElem_mem _)
  unfold Display.pix Display.setPix
  by_cases h1 : r' = r
  · subst h1
    by_cases h2 : c' = c
    · subst h2
      simp [hlen, hrow, hc]
    · simp [hlen, h2, Ne.symm h2]
  · simp [h1, Ne.symm h1]

/-- Outside a fitting grid every pixel reads clear. -/
theorem Display.pix_outside {d : List (List Bool)} {w h : Nat} (hd : Display.Fits d w h) {c r : Nat}
    (hout : ¬(c < w ∧ r < h)) : Display.pix d c r = false := by
  unfold Display.pix
  by_cases hr : r < d.length
  · have hrow : d[r].length = w := hd.2 _ (List.getElem_mem _)
    have hc : ¬ c < w := fun hc => hout ⟨hc, by rw [← hd.1]; exact hr⟩
    simp [hr, hrow, hc]
  · simp [hr]

theorem toggle_fits {p : List (List Bool) × Bool} {w h : Nat} (hd : Display.Fits p.1 w h) (c r : Nat) :
    Display.Fits (toggle p c r).1 w h :=
  Display.setPix_fits hd c r _

theorem drawBit_fits (cfg : Config) (vx vy row : Byte) (r c : Nat) {p : List (List Bool) × Bool} {w h : Nat}
    (hd : Display.Fits p.1 w h) : Display.Fits (drawBit cfg vx vy row r c p).1 w h := by
  unfold drawBit
  split
  · split
    · exact hd
    · exact toggle_fits hd _ _
  · exact hd

theorem drawRow_fits (cfg : Config) (vx vy row : Byte) (r : Nat) {p : List (List Bool) × Bool} {w h : Nat}
    (hd : Display.Fits p.1 w h) : Display.Fits (drawRow cfg vx vy row r p).1 w h := by
  unfold drawRow
  induction List.range 8 generalizing p with
  | nil => exact hd
  | cons c rest ih => exact ih (drawBit_fits cfg vx vy row r c hd)

/-- Drawing a sprite keeps the grid's shape. -/
theorem State.drawSprite_fits (s : State) (x y : RegIx) (n : Nibble) {w h : Nat} (hd : Display.Fits s.display w h) :
    Display.Fits (s.drawSprite x y n).1 w h := by
  unfold State.drawSprite
  suffices H : ∀ (l : List Nat) (p : List (List Bool) × Bool), Display.Fits p.1 w h →
      Display.Fits (l.foldl (fun p r => drawRow s.cfg (s.getV x) (s.getV y) (s.readByte (s.indexed r)) r p) p).1 w h from
    H _ _ hd
  intro l
  induction l with
  | nil => exact fun _ hp => hp
  | cons r rest ih => exact fun p hp => ih _ (drawRow_fits _ _ _ _ _ hp)

/-- A sprite bit lands inside the display, or nowhere, when the display has pixels (40_display.md R94). -/
theorem spriteTarget_inside {cfg : Config} (hw : 1 ≤ cfg.width) (hh : 1 ≤ cfg.height) {px py c r : Nat}
    (ht : spriteTarget cfg px py = some (c, r)) : c < cfg.width ∧ r < cfg.height := by
  unfold spriteTarget at ht
  split at ht
  · split at ht
    · cases ht
    · cases ht
      omega
  · cases ht
    exact ⟨Nat.mod_lt _ hw, Nat.mod_lt _ hh⟩

/-- A tick changes nothing a sprite is drawn from. -/
@[simp] theorem State.tick_drawSprite (s : State) (x y : RegIx) (n : Nibble) :
    s.tick.drawSprite x y n = s.drawSprite x y n := rfl

/-! ### What drawing a sprite does, said once -/

/-- One sprite bit by the pixel it lands on, if any. -/
def landOn (p : List (List Bool) × Bool) : Option (Nat × Nat) → List (List Bool) × Bool
  | none => p
  | some (c, r) => toggle p c r

/-- The pixel a bit (row, column) of the sprite lands on: none for a clear bit or one that is clipped. -/
def State.landing (s : State) (x y : RegIx) (b : Nat × Nat) : Option (Nat × Nat) :=
  if (s.readByte (s.indexed b.1)).getLsbD (7 - b.2) then
    spriteTarget s.cfg ((s.getV x).toNat + b.2) ((s.getV y).toNat + b.1)
  else none

/-- The two nested loops of a draw as one over its bits. -/
theorem State.drawSprite_eq (s : State) (x y : RegIx) (n : Nibble) :
    s.drawSprite x y n = ((spriteBits n).map (s.landing x y)).foldl landOn (s.display, false) := by
  rw [List.foldl_map]
  unfold State.drawSprite spriteBits
  generalize (s.display, false) = p
  induction List.range n.toNat generalizing p with
  | nil => rfl
  | cons r rest ih =>
    rw [List.foldl_cons, List.flatMap_cons, List.foldl_append, ← ih]
    congr 1
    unfold drawRow
    rw [List.foldl_map]
    congr 1
    funext q c
    unfold drawBit State.landing
    split <;> rfl

/-- The hits of a pixel are the bits that land on it. -/
theorem State.spriteHits_eq (s : State) (x y : RegIx) (n : Nibble) (c r : Nat) :
    s.spriteHits x y n c r = ((spriteBits n).map (s.landing x y)).countP (· = some (c, r)) := by
  unfold State.spriteHits
  rw [List.countP_map]
  congr 1
  funext b
  simp only [Function.comp, State.landing]
  split <;> simp_all

/-- Toggling a pixel flips that one; a pixel outside the grid flips none. -/
theorem toggle_pix {p : List (List Bool) × Bool} {w h : Nat} (hd : Display.Fits p.1 w h) (c r : Nat) {c' r' : Nat}
    (hc : c' < w) (hr : r' < h) :
    Display.pix (toggle p c r).1 c' r' = (Display.pix p.1 c' r' ^^ decide (c = c' ∧ r = r')) := by
  unfold toggle
  by_cases hin : c < w ∧ r < h
  · rw [Display.pix_setPix hd hin.1 hin.2]
    by_cases e : c' = c ∧ r' = r
    · obtain ⟨rfl, rfl⟩ := e
      simp
    · have : ¬ (c = c' ∧ r = r') := fun h => e ⟨h.1.symm, h.2.symm⟩
      simp [e, this]
  · have hne : ¬ (c = c' ∧ r = r') := by
      rintro ⟨rfl, rfl⟩
      exact hin ⟨hc, hr⟩
    simp only [hne, decide_false, Bool.xor_false]
    unfold Display.pix Display.setPix
    simp only [List.getD_eq_getElem?_getD, List.getElem?_modify]
    by_cases e : r = r'
    · have hcw : c ≠ c' := fun h => hne ⟨h, e⟩
      subst e
      cases p.1[r]? <;> simp [hcw]
    · simp [e]

end Sys2Proof.Machine
end

