-- ==== Sys2Proof/Laws/PerInstr.lean ====
section
/-! SUPPORT. A fact about every instruction as syntax, one lemma per constructor: its operands fit their fields, and its
canonical word has the fixed bits of its row of the opcode map (30_encoding.md R72, R74, R77). -/

namespace Sys2Proof.Laws.EncodingShape

/-- The instruction is well formed and its canonical word selects its own row. -/
def Statement (i : Instr) : Prop := i.WellFormed = true ∧ i.row.selects (encode i) = true

/-! The fixed bits of a word survive its mask, whatever its fields hold. -/

theorem wordA_fixed (f : Nibble) (nnn : Addr) : wordA f nnn &&& 0xF000#16 = wordA f 0 := by
  apply BitVec.eq_of_getLsbD_eq
  intro i hi
  simp only [BitVec.getLsbD_and, getLsbD_wordA]
  interval_cases i <;> simp

theorem wordXB_fixed (f x : Nibble) (low : Byte) : wordXB f x low &&& 0xF000#16 = wordXB f 0 0 := by
  apply BitVec.eq_of_getLsbD_eq
  intro i hi
  simp only [BitVec.getLsbD_and, getLsbD_wordXB]
  interval_cases i <;> simp

theorem wordXF_fixed (f x : Nibble) (low : Byte) : wordXB f x low &&& 0xF0FF#16 = wordXB f 0 low := by
  apply BitVec.eq_of_getLsbD_eq
  intro i hi
  simp only [BitVec.getLsbD_and, getLsbD_wordXB]
  interval_cases i <;> simp

theorem wordXYN_family_fixed (f x y n : Nibble) : wordXYN f x y n &&& 0xF000#16 = wordXYN f 0 0 0 := by
  apply BitVec.eq_of_getLsbD_eq
  intro i hi
  simp only [BitVec.getLsbD_and, getLsbD_wordXYN]
  interval_cases i <;> simp

theorem wordXYN_fixed (f x y n : Nibble) : wordXYN f x y n &&& 0xF00F#16 = wordXYN f 0 0 n := by
  apply BitVec.eq_of_getLsbD_eq
  intro i hi
  simp only [BitVec.getLsbD_and, getLsbD_wordXYN]
  interval_cases i <;> simp

/-! Operands fit the fields of their format. -/

theorem fits_a (nnn : Addr) : Format.a.operandsFit { nnn := nnn.toNat } = true := by
  simp [Format.operandsFit]; omega

theorem fits_xb (x : RegIx) (nn : Byte) : Format.xb.operandsFit { x := x.toNat, nn := nn.toNat } = true := by
  simp [Format.operandsFit]; omega

theorem fits_xy (x y : RegIx) : Format.xy.operandsFit { x := x.toNat, y := y.toNat } = true := by
  simp [Format.operandsFit]; omega

theorem fits_xyn (x y : RegIx) (n : Nibble) :
    Format.xyn.operandsFit { x := x.toNat, y := y.toNat, n := n.toNat } = true := by
  simp [Format.operandsFit]; omega

theorem fits_xf (x : RegIx) : Format.xf.operandsFit { x := x.toNat } = true := by
  simp [Format.operandsFit]; omega

/-! One lemma per constructor. -/

theorem cls : Statement .cls := ⟨rfl, rfl⟩

theorem ret : Statement .ret := ⟨rfl, rfl⟩

theorem jp (nnn : Addr) : Statement (.jp nnn) :=
  ⟨fits_a nnn, beq_iff_eq.mpr (wordA_fixed _ nnn)⟩

theorem call (nnn : Addr) : Statement (.call nnn) :=
  ⟨fits_a nnn, beq_iff_eq.mpr (wordA_fixed _ nnn)⟩

theorem seByte (x : RegIx) (nn : Byte) : Statement (.seByte x nn) :=
  ⟨fits_xb x nn, beq_iff_eq.mpr (wordXB_fixed _ x nn)⟩

theorem sneByte (x : RegIx) (nn : Byte) : Statement (.sneByte x nn) :=
  ⟨fits_xb x nn, beq_iff_eq.mpr (wordXB_fixed _ x nn)⟩

theorem seReg (x y : RegIx) : Statement (.seReg x y) :=
  ⟨fits_xy x y, beq_iff_eq.mpr (wordXYN_family_fixed _ x y _)⟩

theorem sneReg (x y : RegIx) : Statement (.sneReg x y) :=
  ⟨fits_xy x y, beq_iff_eq.mpr (wordXYN_family_fixed _ x y _)⟩

theorem ldByte (x : RegIx) (nn : Byte) : Statement (.ldByte x nn) :=
  ⟨fits_xb x nn, beq_iff_eq.mpr (wordXB_fixed _ x nn)⟩

theorem addByte (x : RegIx) (nn : Byte) : Statement (.addByte x nn) :=
  ⟨fits_xb x nn, beq_iff_eq.mpr (wordXB_fixed _ x nn)⟩

theorem ldReg (x y : RegIx) : Statement (.ldReg x y) :=
  ⟨fits_xy x y, beq_iff_eq.mpr (wordXYN_fixed _ x y _)⟩

theorem orReg (x y : RegIx) : Statement (.orReg x y) :=
  ⟨fits_xy x y, beq_iff_eq.mpr (wordXYN_fixed _ x y _)⟩

theorem andReg (x y : RegIx) : Statement (.andReg x y) :=
  ⟨fits_xy x y, beq_iff_eq.mpr (wordXYN_fixed _ x y _)⟩

theorem xorReg (x y : RegIx) : Statement (.xorReg x y) :=
  ⟨fits_xy x y, beq_iff_eq.mpr (wordXYN_fixed _ x y _)⟩

theorem addReg (x y : RegIx) : Statement (.addReg x y) :=
  ⟨fits_xy x y, beq_iff_eq.mpr (wordXYN_fixed _ x y _)⟩

theorem subReg (x y : RegIx) : Statement (.subReg x y) :=
  ⟨fits_xy x y, beq_iff_eq.mpr (wordXYN_fixed _ x y _)⟩

theorem shr (x y : RegIx) : Statement (.shr x y) :=
  ⟨fits_xy x y, beq_iff_eq.mpr (wordXYN_fixed _ x y _)⟩

theorem subnReg (x y : RegIx) : Statement (.subnReg x y) :=
  ⟨fits_xy x y, beq_iff_eq.mpr (wordXYN_fixed _ x y _)⟩

theorem shl (x y : RegIx) : Statement (.shl x y) :=
  ⟨fits_xy x y, beq_iff_eq.mpr (wordXYN_fixed _ x y _)⟩

theorem ldI (nnn : Addr) : Statement (.ldI nnn) :=
  ⟨fits_a nnn, beq_iff_eq.mpr (wordA_fixed _ nnn)⟩

theorem jpV0 (nnn : Addr) : Statement (.jpV0 nnn) :=
  ⟨fits_a nnn, beq_iff_eq.mpr (wordA_fixed _ nnn)⟩

theorem rnd (x : RegIx) (nn : Byte) : Statement (.rnd x nn) :=
  ⟨fits_xb x nn, beq_iff_eq.mpr (wordXB_fixed _ x nn)⟩

theorem drw (x y : RegIx) (n : Nibble) : Statement (.drw x y n) :=
  ⟨fits_xyn x y n, beq_iff_eq.mpr (wordXYN_family_fixed _ x y n)⟩

theorem skp (x : RegIx) : Statement (.skp x) :=
  ⟨fits_xf x, beq_iff_eq.mpr (wordXF_fixed _ x _)⟩

theorem sknp (x : RegIx) : Statement (.sknp x) :=
  ⟨fits_xf x, beq_iff_eq.mpr (wordXF_fixed _ x _)⟩

theorem ldVxDt (x : RegIx) : Statement (.ldVxDt x) :=
  ⟨fits_xf x, beq_iff_eq.mpr (wordXF_fixed _ x _)⟩

theorem ldDtVx (x : RegIx) : Statement (.ldDtVx x) :=
  ⟨fits_xf x, beq_iff_eq.mpr (wordXF_fixed _ x _)⟩

theorem ldStVx (x : RegIx) : Statement (.ldStVx x) :=
  ⟨fits_xf x, beq_iff_eq.mpr (wordXF_fixed _ x _)⟩

theorem ldVxK (x : RegIx) : Statement (.ldVxK x) :=
  ⟨fits_xf x, beq_iff_eq.mpr (wordXF_fixed _ x _)⟩

theorem addI (x : RegIx) : Statement (.addI x) :=
  ⟨fits_xf x, beq_iff_eq.mpr (wordXF_fixed _ x _)⟩

theorem ldF (x : RegIx) : Statement (.ldF x) :=
  ⟨fits_xf x, beq_iff_eq.mpr (wordXF_fixed _ x _)⟩

theorem ldB (x : RegIx) : Statement (.ldB x) :=
  ⟨fits_xf x, beq_iff_eq.mpr (wordXF_fixed _ x _)⟩

theorem storeRegs (x : RegIx) : Statement (.storeRegs x) :=
  ⟨fits_xf x, beq_iff_eq.mpr (wordXF_fixed _ x _)⟩

theorem loadRegs (x : RegIx) : Statement (.loadRegs x) :=
  ⟨fits_xf x, beq_iff_eq.mpr (wordXF_fixed _ x _)⟩

end Sys2Proof.Laws.EncodingShape
end

