-- ==== Sys2Proof/Laws/Step.lean ====
section
/-! SUPPORT. What a step can do, said once: how a meaning ends, and the three shapes of a step. -/

namespace Sys2Proof.Machine

/-- How a meaning ends: completed, blocked, or with a fault taken (00_scope.md R12, 60_exceptions.md R145). -/
inductive Ending (i : Instr) (s : State) : State → Prop where
  /-- The instruction wrote what it writes, without halting, and completed. -/
  | completed (u : State) (halt : u.halt = s.halt) : Ending i s u.complete
  /-- Fx0A waits for a key. -/
  | awaitingKey (x : RegIx) (hi : i = .ldVxK x) (latch : s.latch = none) : Ending i s (s.block .awaitingKey)
  /-- Dxyn waits for a tick. -/
  | awaitingVblank (x y : RegIx) (n : Nibble) (hi : i = .drw x y n) (gated : s.drawGated = true) :
      Ending i s (s.block .awaitingVblank)
  /-- The instruction raised a fault. -/
  | faulted (kind : FaultKind) : Ending i s (s.raise kind)

/-! ### The instructions whose course depends on the state, one equation per course -/

theorem exec_ret_cons {s : State} {a : Addr} {rest : List Addr} (h : s.stack = a :: rest) :
    exec .ret s = .next ((s.setStack rest).setPc a).complete := by
  simp only [exec, execRet, State.pop_cons h]

theorem exec_ret_nil {s : State} (h : s.stack = []) : exec .ret s = .next (s.raise .stackUnderflow) := by
  simp only [exec, execRet, State.pop_nil h]

theorem exec_call_room {s : State} (nnn : Addr) (h : s.sp < s.cfg.stackDepth) :
    exec (.call nnn) s = .next ((s.setStack (s.pc :: s.stack)).setPc nnn).complete := by
  simp only [exec, execCall, s.push_room s.pc h]

theorem exec_call_full {s : State} (nnn : Addr) (h : s.cfg.stackDepth ≤ s.sp) :
    exec (.call nnn) s = .next (s.raise .stackOverflow) := by
  simp only [exec, execCall, s.push_full s.pc h]

theorem exec_drw_open {s : State} (x y : RegIx) (n : Nibble) (h : s.drawGated = false) :
    exec (.drw x y n) s = .next (s.drawBody x y n) := by
  simp only [exec, execDrw, h, Bool.false_eq_true, if_false]

theorem exec_drw_faker {s : State} (x y : RegIx) (n : Nibble) (h : s.drawGated = true)
    (hf : s.cfg.quirks.displayWaitFaker = true) : exec (.drw x y n) s = .next (s.tick.drawBody x y n) := by
  simp only [exec, execDrw, h, hf, if_true]

theorem exec_drw_blocked {s : State} (x y : RegIx) (n : Nibble) (h : s.drawGated = true)
    (hf : s.cfg.quirks.displayWaitFaker = false) : exec (.drw x y n) s = .next (s.block .awaitingVblank) := by
  simp only [exec, execDrw, h, hf, if_true, Bool.false_eq_true, if_false]

theorem exec_skp_key {s : State} {x : RegIx} {k : Key} (h : keyIndex s.cfg.keyOutOfRange (s.getV x) = some k) :
    exec (.skp x) s = .next (s.skipIf (s.keyHeld k)).complete := by
  simp only [exec, execSkp, h]

theorem exec_skp_none {s : State} {x : RegIx} (h : keyIndex s.cfg.keyOutOfRange (s.getV x) = none) :
    exec (.skp x) s = .next (s.raise .keyIndexOutOfRange) := by
  simp only [exec, execSkp, h]

theorem exec_sknp_key {s : State} {x : RegIx} {k : Key} (h : keyIndex s.cfg.keyOutOfRange (s.getV x) = some k) :
    exec (.sknp x) s = .next (s.skipIf (!s.keyHeld k)).complete := by
  simp only [exec, execSknp, h]

theorem exec_sknp_none {s : State} {x : RegIx} (h : keyIndex s.cfg.keyOutOfRange (s.getV x) = none) :
    exec (.sknp x) s = .next (s.raise .keyIndexOutOfRange) := by
  simp only [exec, execSknp, h]

theorem exec_ldVxK_some {s : State} (x : RegIx) {k : Key} (h : s.latch = some k) :
    exec (.ldVxK x) s = .next ((s.setV x (k.setWidth 8)).setLatch none).complete := by
  simp only [exec, execLdVxK, h]

theorem exec_ldVxK_none {s : State} (x : RegIx) (h : s.latch = none) :
    exec (.ldVxK x) s = .next (s.block .awaitingKey) := by
  simp only [exec, execLdVxK, h]

theorem exec_ldB_store {s : State} (x : RegIx) (h : s.storeFaults 3 = false) :
    exec (.ldB x) s = .next (s.writeBytes s.iAddr (bcdDigits (s.getV x))).complete := by
  simp only [exec, execLdB, h, Bool.false_eq_true, if_false]

theorem exec_ldB_fault {s : State} (x : RegIx) (h : s.storeFaults 3 = true) :
    exec (.ldB x) s = .next (s.raise .fontWrite) := by
  simp only [exec, execLdB, h, if_true]

theorem exec_storeRegs_store {s : State} (x : RegIx) (h : s.storeFaults (x.toNat + 1) = false) :
    exec (.storeRegs x) s = .next ((s.writeBytes s.iAddr (s.registersTo x)).stepIndex x).complete := by
  simp only [exec, execStoreRegs, h, Bool.false_eq_true, if_false]

theorem exec_storeRegs_fault {s : State} (x : RegIx) (h : s.storeFaults (x.toNat + 1) = true) :
    exec (.storeRegs x) s = .next (s.raise .fontWrite) := by
  simp only [exec, execStoreRegs, h, if_true]

/-! ### No shared operation of an instruction that completes touches the halt record -/

theorem State.skipIf_halt (s : State) (c : Bool) : (s.skipIf c).halt = s.halt := by
  unfold State.skipIf
  split <;> rfl

theorem State.setVThenReset_halt (s : State) (x : RegIx) (b : Byte) : (s.setVThenReset x b).halt = s.halt := by
  unfold State.setVThenReset
  split <;> rfl

theorem State.stepIndex_halt (s : State) (x : RegIx) : (s.stepIndex x).halt = s.halt := by
  unfold State.stepIndex
  split <;> rfl

theorem State.loadRegistersTo_halt (s : State) (x : RegIx) : (s.loadRegistersTo x).halt = s.halt := by
  obtain ⟨⟨file, hf⟩, _⟩ := s.loadRegistersTo_spec x
  rw [hf]

theorem State.writeBytes_halt (s : State) (a : Addr) (l : List Byte) : (s.writeBytes a l).halt = s.halt := by
  obtain ⟨m, hm⟩ := s.writeBytes_frame a l
  rw [hm]
  rfl

/-- Every meaning answers a next state and ends in one of the four ways. -/
theorem exec_ends (i : Instr) (s : State) : ∃ t, exec i s = .next t ∧ Ending i s t := by
  cases i with
  | ret =>
    cases h : s.stack with
    | nil => exact ⟨_, exec_ret_nil h, .faulted _⟩
    | cons a rest => exact ⟨_, exec_ret_cons h, .completed _ rfl⟩
  | call nnn =>
    by_cases h : s.sp < s.cfg.stackDepth
    · exact ⟨_, exec_call_room nnn h, .completed _ rfl⟩
    · exact ⟨_, exec_call_full nnn (Nat.not_lt.mp h), .faulted _⟩
  | drw x y n =>
    cases hg : s.drawGated with
    | false => exact ⟨_, exec_drw_open x y n hg, .completed _ rfl⟩
    | true =>
      cases hf : s.cfg.quirks.displayWaitFaker with
      | true => exact ⟨_, exec_drw_faker x y n hg hf, .completed _ rfl⟩
      | false => exact ⟨_, exec_drw_blocked x y n hg hf, .awaitingVblank x y n rfl hg⟩
  | skp x =>
    cases h : keyIndex s.cfg.keyOutOfRange (s.getV x) with
    | none => exact ⟨_, exec_skp_none h, .faulted _⟩
    | some k => exact ⟨_, exec_skp_key h, .completed _ (s.skipIf_halt _)⟩
  | sknp x =>
    cases h : keyIndex s.cfg.keyOutOfRange (s.getV x) with
    | none => exact ⟨_, exec_sknp_none h, .faulted _⟩
    | some k => exact ⟨_, exec_sknp_key h, .completed _ (s.skipIf_halt _)⟩
  | ldVxK x =>
    cases h : s.latch with
    | none => exact ⟨_, exec_ldVxK_none x h, .awaitingKey x rfl h⟩
    | some k => exact ⟨_, exec_ldVxK_some x h, .completed _ rfl⟩
  | ldB x =>
    cases h : s.storeFaults 3 with
    | true => exact ⟨_, exec_ldB_fault x h, .faulted _⟩
    | false => exact ⟨_, exec_ldB_store x h, .completed _ (s.writeBytes_halt _ _)⟩
  | storeRegs x =>
    cases h : s.storeFaults (x.toNat + 1) with
    | true => exact ⟨_, exec_storeRegs_fault x h, .faulted _⟩
    | false =>
      exact ⟨_, exec_storeRegs_store x h,
        .completed _ ((State.stepIndex_halt _ _).trans (s.writeBytes_halt _ _))⟩
  | loadRegs x =>
    exact ⟨_, rfl, .completed _ ((State.stepIndex_halt _ _).trans (s.loadRegistersTo_halt _))⟩
  | seByte x nn => exact ⟨_, rfl, .completed _ (s.skipIf_halt _)⟩
  | sneByte x nn => exact ⟨_, rfl, .completed _ (s.skipIf_halt _)⟩
  | seReg x y => exact ⟨_, rfl, .completed _ (s.skipIf_halt _)⟩
  | sneReg x y => exact ⟨_, rfl, .completed _ (s.skipIf_halt _)⟩
  | orReg x y => exact ⟨_, rfl, .completed _ (s.setVThenReset_halt _ _)⟩
  | andReg x y => exact ⟨_, rfl, .completed _ (s.setVThenReset_halt _ _)⟩
  | xorReg x y => exact ⟨_, rfl, .completed _ (s.setVThenReset_halt _ _)⟩
  | _ => exact ⟨_, rfl, .completed _ rfl⟩

/-- The three shapes of a step (30_encoding.md R83): a halted report, an unknown opcode, an instruction. -/
theorem step_cases {s t : State} (h : step s = .next t) :
    (∃ f, s.halt = some f ∧ t = (s.reportHalted f).endStep) ∨
    (s.halt = none ∧ decode s.fetchWord = none ∧ t = (s.advance.unknownOpcode s.fetchWord).endStep) ∨
    ∃ i u, s.halt = none ∧ decode s.fetchWord = some i ∧ exec i s.advance = .next u ∧ Ending i s.advance u ∧
      t = u.endStep := by
  unfold step at h
  cases hh : s.halt with
  | some f =>
    rw [hh] at h
    cases h
    exact .inl ⟨f, rfl, rfl⟩
  | none =>
    rw [hh] at h
    cases hd : decode s.fetchWord with
    | none =>
      rw [hd] at h
      cases h
      exact .inr (.inl ⟨rfl, rfl, rfl⟩)
    | some i =>
      rw [hd] at h
      obtain ⟨u, hu, he⟩ := exec_ends i s.advance
      simp only [hu, mapNext, Host.Outcome.next.injEq] at h
      exact .inr (.inr ⟨i, u, rfl, rfl, hu, he, h.symm⟩)

/-! ### What each instruction may write -/

/-- The parts of the state an instruction can change, faults and waits included. -/
def mayWrite (i : Instr) (s : State) (p : Part) : Prop :=
  match i with
  | .cls => ∃ c r, p = .pixel c r
  | .ret | .call _ => p ∈ [.stack, .halt]
  | .jp _ | .jpV0 _ | .seByte _ _ | .sneByte _ _ | .seReg _ _ | .sneReg _ _ => False
  | .ldByte x _ | .addByte x _ | .ldReg x _ | .ldVxDt x => p ∈ [.reg x]
  | .orReg x _ | .andReg x _ | .xorReg x _ => p ∈ [.reg x] ∨ (s.cfg.quirks.vfReset = true ∧ p = .reg vf)
  | .addReg x _ | .subReg x _ | .shr x _ | .subnReg x _ | .shl x _ => p ∈ [.reg x, .reg vf]
  | .rnd x _ => p ∈ [.draws, .reg x]
  | .ldI _ | .addI _ | .ldF _ => p ∈ [.index]
  | .drw _ _ _ => p ∈ [.reg vf, .vblankSeen] ∨ (∃ c r, p = .pixel c r) ∨
      (s.drawGated = true ∧ s.cfg.quirks.displayWaitFaker = true ∧ p ∈ [.delayTimer, .soundTimer])
  | .skp _ | .sknp _ => p ∈ [.halt]
  | .ldDtVx _ => p ∈ [.delayTimer]
  | .ldStVx _ => p ∈ [.soundTimer]
  | .ldVxK x => p ∈ [.reg x, .latch]
  | .ldB _ => p = .halt ∨ p ∈ s.storedParts 3
  | .storeRegs x => p = .halt ∨ p ∈ s.storedParts (x.toNat + 1) ∨ (s.cfg.quirks.memoryIncrement = true ∧ p = .index)
  | .loadRegs x => p ∈ regsTo x ∨ (s.cfg.quirks.memoryIncrement = true ∧ p = .index)

theorem SameExcept.outside {w : List Part} {f : Part → Prop} {s t : State} (h : SameExcept w s t) (hw : ∀ p ∈ w, f p) :
    SameOutside f s t :=
  fun p hp => h p (fun hm => hp (hw p hm))

/-- Completing and taking a fault, seen from outside a set of parts. -/
theorem SameExcept.completeOutside {w : List Part} {f : Part → Prop} {s t : State} (h : SameExcept w s t)
    (hw : ∀ p ∈ w, f p) : SameOutside f s t.complete :=
  h.complete.2.outside hw

theorem State.raise_outside (s : State) (kind : FaultKind) {f : Part → Prop} (hf : f .halt) :
    SameOutside f s (s.raise kind) :=
  (s.raise_tookFault kind).2.2.2.outside (by simpa using hf)

theorem State.block_outside (s : State) (r : Status) {f : Part → Prop} : SameOutside f s (s.block r) :=
  (s.block_blocked r).2.2.outside (by simp)

theorem State.stepIndex_outside (s : State) (x : RegIx) :
    SameOutside (fun p => s.cfg.quirks.memoryIncrement = true ∧ p = .index) s (s.stepIndex x) := by
  cases h : s.cfg.quirks.memoryIncrement with
  | true => exact (s.stepIndex_same x).outside (by simp)
  | false =>
    rw [s.stepIndex_off x h]
    exact fun p _ => SameExcept.refl [] s p (by simp)

theorem State.setVThenReset_outside (s : State) (x : RegIx) (b : Byte) :
    SameOutside (fun p => p ∈ [.reg x] ∨ (s.cfg.quirks.vfReset = true ∧ p = .reg vf)) s (s.setVThenReset x b) := by
  cases h : s.cfg.quirks.vfReset with
  | true =>
    rw [State.setVThenReset, if_pos h]
    exact (s.setVThenFlag_same x b 0#8).outside (by simp)
  | false =>
    rw [State.setVThenReset, if_neg (by simp [h])]
    exact (s.setV_same x b).outside (by simp)

theorem SameOutside.trans {f : Part → Prop} {s t u : State} (h : SameOutside f s t) (h' : SameOutside f t u) :
    SameOutside f s u :=
  fun p hp => (h p hp).trans (h' p hp)

theorem SameOutside.mono {f g : Part → Prop} {s t : State} (h : SameOutside f s t) (hfg : ∀ p, f p → g p) :
    SameOutside g s t :=
  fun p hp => h p (fun hf => hp (hfg p hf))

theorem SameOutside.complete {f : Part → Prop} {s t : State} (h : SameOutside f s t) : SameOutside f s t.complete :=
  h.trans (t.complete_same.outside (by simp))

/-- The body of a draw writes VF, the vblank flag and pixels. -/
theorem State.drawBody_outside (s : State) (x y : RegIx) (n : Nibble) :
    SameOutside (fun p => p ∈ [.reg vf, .vblankSeen] ∨ ∃ c r, p = .pixel c r) s (s.drawBody x y n) := by
  have h1 := (s.setVblankSeen_same false).outside (f := fun p => p ∈ [.reg vf, .vblankSeen] ∨ ∃ c r, p = .pixel c r)
    (by simp)
  have h2 := ((s.setVblankSeen false).setDisplay_same (s.drawSprite x y n).1).mono
    (g := fun p => p ∈ [.reg vf, .vblankSeen] ∨ ∃ c r, p = .pixel c r) (fun _ => .inr)
  exact ((h1.trans h2).trans ((State.setV_same _ vf _).outside (by simp))).complete

/-- THE FRAME OF EVERY INSTRUCTION: a next state differs from the state before in nothing but what it may write. -/
theorem exec_same {i : Instr} {s t : State} (h : exec i s = .next t) : SameOutside (mayWrite i s) s t := by
  cases i with
  | cls => cases h; exact (s.setDisplay_same _).complete
  | ret =>
    cases e : s.stack with
    | nil => rw [exec_ret_nil e] at h; cases h; exact s.raise_outside _ (by simp [mayWrite])
    | cons a l =>
      rw [exec_ret_cons e] at h
      cases h
      exact (((s.setStack_same l).outside (by simp [mayWrite])).trans
        ((State.setPc_same _ a).outside (by simp))).complete
  | call a =>
    by_cases e : s.sp < s.cfg.stackDepth
    · rw [exec_call_room a e] at h
      cases h
      exact (((s.setStack_same _).outside (by simp [mayWrite])).trans
        ((State.setPc_same _ a).outside (by simp))).complete
    · rw [exec_call_full a (Nat.not_lt.mp e)] at h
      cases h
      exact s.raise_outside _ (by simp [mayWrite])
  | drw x y n =>
    cases hg : s.drawGated with
    | false =>
      rw [exec_drw_open x y n hg] at h
      cases h
      exact (s.drawBody_outside x y n).mono (fun _ hp => hp.elim .inl (fun hc => .inr (.inl hc)))
    | true =>
      cases hf : s.cfg.quirks.displayWaitFaker with
      | true =>
        rw [exec_drw_faker x y n hg hf] at h
        cases h
        exact (s.tick_same.outside (by simp [mayWrite, hg, hf])).trans
          ((s.tick.drawBody_outside x y n).mono (fun _ hp => hp.elim .inl (fun hc => .inr (.inl hc))))
      | false =>
        rw [exec_drw_blocked x y n hg hf] at h
        cases h
        exact s.block_outside _
  | skp x =>
    cases e : keyIndex s.cfg.keyOutOfRange (s.getV x) with
    | none => rw [exec_skp_none e] at h; cases h; exact s.raise_outside _ (by simp [mayWrite])
    | some k => rw [exec_skp_key e] at h; cases h; exact (s.skipIf_same _).completeOutside (by simp)
  | sknp x =>
    cases e : keyIndex s.cfg.keyOutOfRange (s.getV x) with
    | none => rw [exec_sknp_none e] at h; cases h; exact s.raise_outside _ (by simp [mayWrite])
    | some k => rw [exec_sknp_key e] at h; cases h; exact (s.skipIf_same _).completeOutside (by simp)
  | ldVxK x =>
    cases e : s.latch with
    | none => rw [exec_ldVxK_none x e] at h; cases h; exact s.block_outside _
    | some k =>
      rw [exec_ldVxK_some x e] at h
      cases h
      exact ((s.setV_same x _).append (State.setLatch_same _ none)).completeOutside (by simp [mayWrite])
  | ldB x =>
    cases e : s.storeFaults 3 with
    | true => rw [exec_ldB_fault x e] at h; cases h; exact s.raise_outside _ (.inl rfl)
    | false => rw [exec_ldB_store x e] at h; cases h; exact (s.writeBytes_same _).completeOutside (fun _ => .inr)
  | storeRegs x =>
    cases e : s.storeFaults (x.toNat + 1) with
    | true => rw [exec_storeRegs_fault x e] at h; cases h; exact s.raise_outside _ (.inl rfl)
    | false =>
      rw [exec_storeRegs_store x e] at h
      cases h
      have hw := s.writeBytes_same (s.registersTo x)
      rw [s.registersTo_length] at hw
      have hc : (s.writeBytes s.iAddr (s.registersTo x)).cfg = s.cfg := by
        obtain ⟨m, hm⟩ := s.writeBytes_frame s.iAddr (s.registersTo x)
        rw [hm]
        rfl
      exact ((hw.outside (fun _ hp => .inr (.inl hp))).trans
        ((State.stepIndex_outside _ x).mono (fun p hp => .inr (.inr (by rwa [hc] at hp))))).complete
  | loadRegs x =>
    cases h
    have hc : (s.loadRegistersTo x).cfg = s.cfg := by
      obtain ⟨⟨file, hf⟩, _⟩ := s.loadRegistersTo_spec x
      rw [hf]
    exact (((s.loadRegistersTo_same x).outside (fun _ => .inl)).trans
      ((State.stepIndex_outside _ x).mono (fun p hp => .inr (by rwa [hc] at hp)))).complete
  | seByte x nn => cases h; exact (s.skipIf_same _).completeOutside (by simp)
  | sneByte x nn => cases h; exact (s.skipIf_same _).completeOutside (by simp)
  | seReg x y => cases h; exact (s.skipIf_same _).completeOutside (by simp)
  | sneReg x y => cases h; exact (s.skipIf_same _).completeOutside (by simp)
  | jp a => cases h; exact (s.setPc_same a).completeOutside (by simp)
  | jpV0 a => cases h; exact (s.setPc_same _).completeOutside (by simp)
  | orReg x y => cases h; exact (s.setVThenReset_outside x _).complete
  | andReg x y => cases h; exact (s.setVThenReset_outside x _).complete
  | xorReg x y => cases h; exact (s.setVThenReset_outside x _).complete
  | addReg x y => cases h; exact (s.setVThenFlag_same x _ _).completeOutside (fun _ hp => hp)
  | subReg x y => cases h; exact (s.setVThenFlag_same x _ _).completeOutside (fun _ hp => hp)
  | shr x y => cases h; exact (s.setVThenFlag_same x _ _).completeOutside (fun _ hp => hp)
  | subnReg x y => cases h; exact (s.setVThenFlag_same x _ _).completeOutside (fun _ hp => hp)
  | shl x y => cases h; exact (s.setVThenFlag_same x _ _).completeOutside (fun _ hp => hp)
  | ldByte x nn => cases h; exact (s.setV_same x _).completeOutside (fun _ hp => hp)
  | addByte x nn => cases h; exact (s.setV_same x _).completeOutside (fun _ hp => hp)
  | ldReg x y => cases h; exact (s.setV_same x _).completeOutside (fun _ hp => hp)
  | ldVxDt x => cases h; exact (s.setV_same x _).completeOutside (fun _ hp => hp)
  | rnd x nn =>
    cases h
    exact ((s.setDraws_same _).append (State.setV_same _ x _)).completeOutside (fun _ hp => hp)
  | ldI a => cases h; exact (s.setI_same _).completeOutside (fun _ hp => hp)
  | addI x => cases h; exact (s.setI_same _).completeOutside (fun _ hp => hp)
  | ldF x => cases h; exact (s.setI_same _).completeOutside (fun _ hp => hp)
  | ldDtVx x => cases h; exact (s.setDt_same _).completeOutside (fun _ hp => hp)
  | ldStVx x => cases h; exact (s.setSt_same _).completeOutside (fun _ hp => hp)

end Sys2Proof.Machine
end

