-- ==== Sys2Proof/Tests/Slice0.lean ====
section
/-! SUPPORT. The model's own tests: well-formedness, decoding of words written out from 30_encoding.md, single steps from
95_test_vectors.md, and a witness for every statement that has hypotheses. -/

namespace Sys2Proof.Tests

-- one theorem after the other: a thread for each would not fit the sandbox's memory limit
set_option Elab.async false

open Sys2Proof.Machine

/-! ### Small states -/

/-- This hardware with an empty ROM loaded and one word at 0x200, the convention of 95_test_vectors.md. -/
def placed (w : Word) : State := ((State.reset.loaded []).writeByte 0x200 (Word.highByte w)).writeByte 0x201 (Word.lowByte w)

/-- The same, with a tick seen since the last draw. -/
def placedTicked (w : Word) : State := (placed w).setVblankSeen true

/-- The state after one step. -/
def stepped (s : State) : Option State :=
  match step s with
  | .next t => some t
  | _ => none

/-- A state with its quirk record changed. -/
def quirked (f : Quirks → Quirks) (s : State) : State := { s with cfg := { s.cfg with quirks := f s.cfg.quirks } }

/-- A state with `P_FONT_WRITE = fault`. -/
def guardedFont (s : State) : State := { s with cfg := { s.cfg with fontWrite := .fault } }

/-- A state with `P_KEY_OOR = low_nibble`. -/
def lowNibbleKeys (s : State) : State := { s with cfg := { s.cfg with keyOutOfRange := .lowNibble } }

/-- A state halted by `StackUnderflow` at 0x200. -/
def haltedState : State := (placed 0x00EE).setHalt (some ⟨.stackUnderflow, 0x200, 0x00EE⟩)

/-- A full stack of 24 return addresses. -/
def fullStack : List Addr := List.replicate 24 0x202

/-- The set pixels, as (column, row), in row order. -/
def setPixels (s : State) : List (Nat × Nat) :=
  s.display.zipIdx.flatMap fun row => row.1.zipIdx.filterMap fun p => if p.1 then some (p.2, row.2) else none

/-- A state with one pixel set. -/
def withPixel (c r : Nat) (s : State) : State := s.setDisplay (Display.setPix s.display c r true)

/-! ### Well-formedness: one ill-formed tuple of operands for each check, and one configuration for each bound -/

theorem test_z_refuses_operand : Format.z.operandsFit { x := 1 } = false := by decide
theorem test_a_refuses_wide_address : Format.a.operandsFit { nnn := 0x1000 } = false := by decide
theorem test_a_refuses_register : Format.a.operandsFit { nnn := 0xFFF, x := 1 } = false := by decide
theorem test_xb_refuses_register_16 : Format.xb.operandsFit { x := 16, nn := 1 } = false := by decide
theorem test_xb_refuses_wide_byte : Format.xb.operandsFit { x := 1, nn := 0x100 } = false := by decide
theorem test_xb_refuses_second_register : Format.xb.operandsFit { x := 1, nn := 1, y := 1 } = false := by decide
theorem test_xy_refuses_register_16 : Format.xy.operandsFit { x := 16, y := 1 } = false := by decide
theorem test_xy_refuses_second_16 : Format.xy.operandsFit { x := 1, y := 16 } = false := by decide
theorem test_xy_refuses_height : Format.xy.operandsFit { x := 1, y := 1, n := 1 } = false := by decide
theorem test_xyn_refuses_register_16 : Format.xyn.operandsFit { x := 16, y := 1, n := 1 } = false := by decide
theorem test_xyn_refuses_second_16 : Format.xyn.operandsFit { x := 1, y := 16, n := 1 } = false := by decide
theorem test_xyn_refuses_height_16 : Format.xyn.operandsFit { x := 1, y := 1, n := 16 } = false := by decide
theorem test_xyn_refuses_byte : Format.xyn.operandsFit { x := 1, y := 1, n := 1, nn := 1 } = false := by decide
theorem test_xf_refuses_register_16 : Format.xf.operandsFit { x := 16 } = false := by decide
theorem test_xf_refuses_byte : Format.xf.operandsFit { x := 1, nn := 7 } = false := by decide
theorem test_config_refuses_no_columns : Config.WellFormed { Config.hardware with width := 0 } = false := by decide
theorem test_config_refuses_no_rows : Config.WellFormed { Config.hardware with height := 0 } = false := by decide
theorem test_config_refuses_no_stack : Config.WellFormed { Config.hardware with stackDepth := 0 } = false := by decide
theorem test_hardware_well_formed : Config.hardware.WellFormed = true := by decide

/-! ### Decoding: every row's word written out bit by bit from 30_encoding.md R72, R74 -/

theorem test_decode_display : decode 0b0000_0000_1110_0000 = some .cls ∧
    decode 0b1101_0001_0010_0101 = some (.drw 0x1 0x2 0x5) := by decide

theorem test_decode_control : decode 0b0000_0000_1110_1110 = some .ret ∧
    decode 0b0001_1010_1011_1100 = some (.jp 0xABC) ∧ decode 0b0010_0011_0000_0001 = some (.call 0x301) ∧
    decode 0b0011_0001_0000_0101 = some (.seByte 0x1 0x05) ∧ decode 0b0100_0001_0000_0101 = some (.sneByte 0x1 0x05) ∧
    decode 0b0101_0001_0010_0000 = some (.seReg 0x1 0x2) ∧ decode 0b1001_0001_0010_0000 = some (.sneReg 0x1 0x2) ∧
    decode 0b1011_0011_0000_0111 = some (.jpV0 0x307) := by decide

theorem test_decode_loads_and_arithmetic : decode 0b0110_1010_0000_0101 = some (.ldByte 0xA 0x05) ∧
    decode 0b0111_1010_0000_0010 = some (.addByte 0xA 0x02) ∧ decode 0b1000_0001_0010_0000 = some (.ldReg 0x1 0x2) ∧
    decode 0b1000_0001_0010_0001 = some (.orReg 0x1 0x2) ∧ decode 0b1000_0001_0010_0010 = some (.andReg 0x1 0x2) ∧
    decode 0b1000_0001_0010_0011 = some (.xorReg 0x1 0x2) ∧ decode 0b1000_0001_0010_0100 = some (.addReg 0x1 0x2) ∧
    decode 0b1000_0001_0010_0101 = some (.subReg 0x1 0x2) ∧ decode 0b1000_0001_0010_0110 = some (.shr 0x1 0x2) ∧
    decode 0b1000_0001_0010_0111 = some (.subnReg 0x1 0x2) ∧ decode 0b1000_0001_0010_1110 = some (.shl 0x1 0x2) ∧
    decode 0b1100_0011_0000_1111 = some (.rnd 0x3 0x0F) := by decide

theorem test_decode_index_and_memory : decode 0b1010_0010_0000_1010 = some (.ldI 0x20A) ∧
    decode 0b1111_0100_0001_1110 = some (.addI 0x4) ∧ decode 0b1111_0010_0010_1001 = some (.ldF 0x2) ∧
    decode 0b1111_0101_0011_0011 = some (.ldB 0x5) ∧ decode 0b1111_0010_0101_0101 = some (.storeRegs 0x2) ∧
    decode 0b1111_0010_0110_0101 = some (.loadRegs 0x2) := by decide

theorem test_decode_keys_and_timers : decode 0b1110_0001_1001_1110 = some (.skp 0x1) ∧
    decode 0b1110_0001_1010_0001 = some (.sknp 0x1) ∧ decode 0b1111_0011_0000_0111 = some (.ldVxDt 0x3) ∧
    decode 0b1111_0011_0001_0101 = some (.ldDtVx 0x3) ∧ decode 0b1111_0011_0001_1000 = some (.ldStVx 0x3) ∧
    decode 0b1111_0100_0000_1010 = some (.ldVxK 0x4) := by decide

/-- The example words of 30_encoding.md R78 and 95_test_vectors.md: unknown. -/
theorem test_decode_unknown : decode 0x0000 = none ∧ decode 0x00FF = none ∧ decode 0x8008 = none ∧ decode 0x800F = none ∧
    decode 0xE000 = none ∧ decode 0xE19F = none ∧ decode 0xF000 = none ∧ decode 0xF130 = none := by decide

/-- The example words of 30_encoding.md R76: 0x1E0 is 00E0, 0x3EE is 00EE, 0x5121 is 5xy0. -/
theorem test_decode_non_canonical : decode 0x01E0 = some .cls ∧ decode 0x03EE = some .ret ∧
    decode 0x5121 = some (.seReg 0x1 0x2) ∧ decode 0x912F = some (.sneReg 0x1 0x2) := by decide

theorem test_decodeBytes_big_endian : decodeBytes [0x6A, 0x05, 0x7A] = .ok (.ldByte 0xA 0x05, [0x7A]) := by decide +kernel
theorem test_decodeBytes_refuses_unknown : decodeBytes [0x80, 0x08] = .error (.unknownOpcode 0x8008) := by decide +kernel
theorem test_decodeBytes_refuses_one_byte : decodeBytes [0x6A] = .error .truncated := by decide +kernel

/-- The words the programs P1 to P4 of 95_test_vectors.md give for these instructions. -/
theorem test_encode_program_words : encode (.ldByte 0xA 0x05) = 0x6A05 ∧ encode (.drw 0x1 0x2 0x5) = 0xD125 ∧
    encode (.call 0x210) = 0x2210 ∧ encode (.addReg 0x0 0x2) = 0x8024 ∧ encode .ret = 0x00EE ∧
    encode (.ldB 0x0) = 0xF033 ∧ encode (.loadRegs 0x2) = 0xF265 ∧ encode (.ldVxK 0x0) = 0xF00A ∧
    encode (.jp 0x208) = 0x1208 ∧ encode (.ldDtVx 0x3) = 0xF315 := by decide

/-- A table word is read as the instruction, and placed at the fetch it is what the first step after reset runs. -/
theorem test_table_word_runs : decodeTableWord 16 0x6A05 = some (.ldByte 0xA 0x05) ∧
    (stepped (State.reset.withFetchWord 16 0x6A05)).map (fun t => (t.getV 0xA, t.pc, t.status))
      = some (0x05, 0x202, some .completed) := by decide +kernel

theorem test_core_reset : Sys2Proof.core.reset = State.reset := rfl

/-! ### Single steps: the vectors of 95_test_vectors.md -/

theorem test_unknown_is_no_op : (stepped (placed 0x8008)).map (fun t => (t.pc, t.status, t.v))
    = some (0x202, some (.unknownOpcode 0x8008), Vector.replicate 16 0#8) := by decide +kernel

/-- A fetch at 0xFFF takes its second byte from 0x000, the font's 0xF0. -/
theorem test_fetch_wraps : (stepped (((placed 0).writeByte 0xFFF 0x12).setPc 0xFFF)).map (·.pc) = some 0x2F0 := by
  decide +kernel

theorem test_cls : (stepped (withPixel 5 5 (placedTicked 0x01E0))).map (fun t => (setPixels t, t.vblankSeen, t.pc))
    = some ([], true, 0x202) := by decide +kernel

/-- The rows partial collision, wrap bottom edge, clip right edge, origin outside under clipping, and I wrapping into the font. -/
theorem test_drw_pixels :
    ((stepped (withPixel 1 0 (((placedTicked 0xD001).setI 0x300).writeByte 0x300 0xF0))).map
      (fun t => (setPixels t, t.getV vf, t.vblankSeen, t.pc))
    = some ([(0, 0), (2, 0), (3, 0)], 1, false, 0x202)) ∧
    ((stepped (quirked (fun q => { q with clipping := false })
      (((((placedTicked 0xD122).setV 2 31).setI 0x300).writeByte 0x300 0x80).writeByte 0x301 0x80))).map setPixels
    = some [(0, 0), (0, 31)]) ∧
    ((stepped ((((placedTicked 0xD121).setV 1 60).setI 0x300).writeByte 0x300 0xFF)).map
      (fun t => (setPixels t, t.getV vf)) = some ([(60, 0), (61, 0), (62, 0), (63, 0)], 0)) ∧
    ((stepped ((((placedTicked 0xD121).setV 1 64).setI 0x300).writeByte 0x300 0x80)).map
    (fun t => (setPixels t, t.getV vf)) = some ([], 0)) ∧
    ((stepped (((placedTicked 0xD002).setI 0xFFF).writeByte 0xFFF 0x80)).map setPixels
    = some [(0, 0), (0, 1), (1, 1), (2, 1), (3, 1)]) := by
  decide +kernel

/-- The rows waits and faker. -/
theorem test_drw_gate :
    ((stepped (placed 0xD001)).map (fun t => (t.status, t.pc, t.vblankSeen))
    = some (some .awaitingVblank, 0x200, false)) ∧
    ((stepped (quirked (fun q => { q with displayWaitFaker := true })
      (((((placed 0xD001).setDt 5).setSt 1).setI 0x300).writeByte 0x300 0x80))).map
      (fun t => (t.dt, t.st, setPixels t, t.vblankSeen, t.pc)) = some (4, 0, [(0, 0)], false, 0x202)) := by
  decide +kernel

theorem test_call_return_address_wraps :
    (stepped (((((placed 0).writeByte 0xFFE 0x23).writeByte 0xFFF 0x00)).setPc 0xFFE)).map (fun t => (t.stack, t.pc))
    = some ([0x000], 0x300) := by decide +kernel

theorem test_call_overflows :
    (stepped ((placed 0x2200).setStack fullStack)).map (fun t => (t.status, t.pc, decide (t.stack = fullStack), t.halt))
    = some (some (.fault ⟨.stackOverflow, 0x200, 0x2200⟩), 0x200, true, some ⟨.stackOverflow, 0x200, 0x2200⟩) := by
  decide +kernel

theorem test_ret : (stepped ((placed 0x00EE).setStack [0x204])).map (fun t => (t.stack, t.pc)) = some ([], 0x204) := by
  decide +kernel

theorem test_ret_underflows : (stepped (placed 0x00EE)).map (fun t => (t.status, t.pc))
    = some (some (.fault ⟨.stackUnderflow, 0x200, 0x00EE⟩), 0x200) := by decide +kernel

theorem test_jp : (stepped (placed 0x1ABC)).map (·.pc) = some 0xABC := by decide +kernel

theorem test_seByte_wraps :
    (stepped ((((placed 0).writeByte 0xFFC 0x31).writeByte 0xFFD 0x00).setPc 0xFFC)).map (·.pc) = some 0x000 := by
  decide +kernel

theorem test_sneByte : (stepped ((placed 0x4105).setV 1 6)).map (·.pc) = some 0x204 := by decide +kernel

theorem test_seReg : (stepped (((placed 0x5121).setV 1 3).setV 2 3)).map (·.pc) = some 0x204 := by decide +kernel

theorem test_sneReg : (stepped (((placed 0x9120).setV 1 3).setV 2 4)).map (·.pc) = some 0x204 := by decide +kernel

theorem test_jpV0_wraps : (stepped ((placed 0xBFFF).setV 0 0xFF)).map (·.pc) = some 0x0FE := by decide +kernel

theorem test_jpV0_jumping :
    (stepped (quirked (fun q => { q with jumping := true }) (((placed 0xB300).setV 0 0x10).setV 3 0x20))).map (·.pc)
    = some 0x320 := by decide +kernel

theorem test_ldByte : (stepped (placed 0x6FAB)).map (·.getV vf) = some 0xAB := by decide +kernel

theorem test_addByte_no_carry : (stepped (((placed 0x71FF).setV 1 1).setV vf 7)).map (fun t => (t.getV 1, t.getV vf))
    = some (0, 7) := by decide +kernel

theorem test_ldReg : (stepped ((placed 0x8120).setV 2 0x33)).map (·.getV 1) = some 0x33 := by decide +kernel

theorem test_or_resets_vf : (stepped (((placed 0x8F11).setV vf 0x0F).setV 1 0xF0)).map (·.getV vf) = some 0 := by
  decide +kernel

theorem test_or_keeps_vf :
    (stepped (quirked (fun q => { q with vfReset := false }) (((placed 0x8F11).setV vf 0x0F).setV 1 0xF0))).map
      (·.getV vf) = some 0xFF := by decide +kernel

theorem test_and : (stepped ((((placed 0x8122).setV 1 0x3C).setV 2 0x0F).setV vf 9)).map
    (fun t => (t.getV 1, t.getV vf)) = some (0x0C, 0) := by decide +kernel

theorem test_xor : (stepped (((placed 0x8113).setV 1 0x5A).setV vf 9)).map (fun t => (t.getV 1, t.getV vf))
    = some (0, 0) := by decide +kernel

theorem test_add_carries : (stepped (((placed 0x8124).setV 1 0xC8).setV 2 0x64)).map (fun t => (t.getV 1, t.getV vf))
    = some (0x2C, 1) := by decide +kernel

theorem test_add_into_vf : (stepped (((placed 0x8F14).setV vf 0x80).setV 1 0x10)).map (·.getV vf) = some 0 := by
  decide +kernel

theorem test_sub_borrows : (stepped (((placed 0x8125).setV 1 0x05).setV 2 0x07)).map (fun t => (t.getV 1, t.getV vf))
    = some (0xFE, 0) := by decide +kernel

theorem test_sub_equal : (stepped ((placed 0x8115).setV 1 0x33)).map (fun t => (t.getV 1, t.getV vf)) = some (0, 1) := by
  decide +kernel

theorem test_shr : (stepped (((placed 0x8126).setV 1 0xFF).setV 2 0x05)).map
    (fun t => (t.getV 1, t.getV vf, t.getV 2)) = some (2, 1, 5) := by decide +kernel

theorem test_shr_in_place :
    (stepped (quirked (fun q => { q with shifting := true }) (((placed 0x8126).setV 1 0x05).setV 2 0xFF))).map
      (fun t => (t.getV 1, t.getV vf, t.getV 2)) = some (2, 1, 0xFF) := by decide +kernel

theorem test_subn : (stepped (((placed 0x8127).setV 1 0x07).setV 2 0x05)).map (fun t => (t.getV 1, t.getV vf))
    = some (0xFE, 0) := by decide +kernel

theorem test_shl : (stepped ((placed 0x812E).setV 2 0x81)).map (fun t => (t.getV 1, t.getV vf, t.getV 2))
    = some (2, 1, 0x81) := by decide +kernel

theorem test_shl_into_vf : (stepped ((placed 0x8F1E).setV 1 0x80)).map (·.getV vf) = some 1 := by decide +kernel

/-- With the draw `r`, whatever byte it is, 0xC30F gives V3 = r AND 0x0F. -/
theorem test_rnd : (stepped (placed 0xC30F)).map (·.getV 3) = some (Config.randomByte 0 &&& 0x0F) := rfl

theorem test_ldI : (stepped (placed 0xAFFF)).map (·.i) = some 0xFFF := by decide +kernel

theorem test_addI_wraps : (stepped (((placed 0xF41E).setI 0xFFF).setV 4 1)).map (fun t => (t.i, t.getV vf))
    = some (0, 0) := by decide +kernel

theorem test_ldF_whole_byte : (stepped ((placed 0xF229).setV 2 0xFF)).map (·.i) = some 0x4FB := by decide +kernel

theorem test_ldB : (stepped (((placed 0xF533).setV 5 0xFE).setI 0x300)).map
    (fun t => ([t.readByte 0x300, t.readByte 0x301, t.readByte 0x302], t.i)) = some ([2, 5, 4], 0x300) := by decide +kernel

theorem test_ldB_wraps_into_font : (stepped (((placed 0xF533).setV 5 0x07).setI 0xFFE)).map
    (fun t => [t.readByte 0xFFE, t.readByte 0xFFF, t.readByte 0x000]) = some [0, 0, 0xF0] := by decide +kernel

theorem test_storeRegs : (stepped (((((placed 0xF255).setV 0 1).setV 1 2).setV 2 3).setI 0x400)).map
    (fun t => ([t.readByte 0x400, t.readByte 0x401, t.readByte 0x402], t.i)) = some ([1, 2, 3], 0x403) := by decide +kernel

theorem test_storeRegs_guarded_font : (stepped (guardedFont ((((placed 0xF155).setV 0 1).setV 1 2).setI 0xFFF))).map
    (fun t => (t.status, t.readByte 0xFFF, t.i)) = some (some (.fault ⟨.fontWrite, 0x200, 0xF155⟩), 0, 0xFFF) := by
  decide +kernel

theorem test_loadRegs_wraps_into_font : (stepped (((placed 0xF165).writeByte 0xFFF 0xAA).setI 0xFFF)).map
    (fun t => (t.getV 0, t.getV 1, t.i)) = some (0xAA, 0xF0, 0x001) := by decide +kernel

theorem test_loadRegs_reads_font : (stepped (placed 0xFF65)).map (fun t => (t.v.toList, t.i))
    = some ([0xF0, 0x90, 0x90, 0x90, 0xF0, 0x20, 0x60, 0x20, 0x20, 0x70, 0xF0, 0x10, 0xF0, 0x80, 0xF0, 0xF0], 0x010) := by
  decide +kernel

theorem test_skp : (stepped (((placed 0xE19E).setV 1 5).setKeys ((Vector.replicate 16 false).set 5 true))).map (·.pc)
    = some 0x204 := by decide +kernel

theorem test_skp_faults : (stepped ((placed 0xE19E).setV 1 16)).map (fun t => (t.status, t.pc))
    = some (some (.fault ⟨.keyIndexOutOfRange, 0x200, 0xE19E⟩), 0x200) := by decide +kernel

theorem test_sknp : (stepped ((placed 0xE1A1).setV 1 5)).map (·.pc) = some 0x204 := by decide +kernel

theorem test_sknp_held : (stepped (((placed 0xE1A1).setV 1 5).setKeys ((Vector.replicate 16 false).set 5 true))).map
    (·.pc) = some 0x202 := by decide +kernel

theorem test_ldVxDt : (stepped ((placed 0xF307).setDt 0x3C)).map (·.getV 3) = some 0x3C := by decide +kernel

theorem test_ldDtVx : (stepped ((placed 0xF315).setDt 9)).map (·.dt) = some 0 := by decide +kernel

theorem test_ldStVx : (stepped ((placed 0xF318).setV 3 0x0A)).map (·.st) = some 0x0A := by decide +kernel

theorem test_ldVxK_waits : (stepped ((placed 0xF40A).setKeys ((Vector.replicate 16 false).set 4 true))).map
    (fun t => (t.status, t.pc, t.getV 4)) = some (some .awaitingKey, 0x200, 0) := by decide +kernel

theorem test_ldVxK_takes_key : (stepped ((placed 0xFF0A).setLatch (some 0xC))).map (fun t => (t.getV vf, t.latch, t.pc))
    = some (0x0C, none, 0x202) := by decide +kernel

theorem test_edge_is_lost : (stepped ((placed 0x6000).setLatch (some 3))).map (·.latch) = some none := by decide +kernel

theorem test_halted_step : (stepped (haltedState.setLatch (some 3))).map (fun t => (t.status, t.latch, t.pc))
    = some (some (.halted ⟨.stackUnderflow, 0x200, 0x00EE⟩), none, 0x200) := by decide +kernel

/-! ### The host's calls: the vectors of 95_test_vectors.md -/

theorem test_tick_floors : (fun t : State => (t.dt, t.st, t.vblankSeen)) (tick ((placed 0).setDt 1)) = (0, 0, true) := by
  decide +kernel

theorem test_tick_on_halted : (tick (haltedState.setDt 2)).dt = 1 := by decide +kernel

theorem test_load_resets :
    (fun t : State => (t.halt, t.getV 1, t.pc, setPixels t, t.readByte 0x100, t.readByte 0x300))
      (load [] (withPixel 0 0 (((haltedState.setV 1 9).writeByte 0x100 0x55).writeByte 0x300 0x77))).2
    = (none, 0, 0x200, [(0, 0)], 0x55, 0) := by decide +kernel

theorem test_load_odd_rom : (fun t : State => [t.readByte 0x200, t.readByte 0x201, t.readByte 0x202, t.readByte 0x203])
    (load [0x12, 0x34, 0x56] (placed 0xFFFF)).2 = [0x12, 0x34, 0x56, 0x00] := by decide +kernel

theorem test_load_too_large : (load (List.replicate 3585 0) haltedState).1 = .romTooLarge := by decide +kernel

theorem test_load_exact : (load (List.replicate 3584 0) haltedState).1 = .ok := by decide +kernel

theorem test_snapshot_stack_bytes : (snapshot ((placed 0).setStack [0xABC, 0x204])).stackBytes = [0x04, 0x02, 0xBC, 0x0A] := by
  decide +kernel

theorem test_fault_codes : [FaultKind.stackOverflow, .stackUnderflow, .keyIndexOutOfRange, .fontWrite].map FaultKind.code
    = [1, 2, 3, 4] := by decide

/-! ### Witnesses: for every statement that has hypotheses, a state and operands that meet them, clause by clause -/

theorem witness_DecodeOfEncodeIsIdentity : (Instr.drw 0xF 0xF 0xF).WellFormed = true := by decide

theorem witness_DecoderSelectsOpcodeRow : Instr.cls.row ∈ opcodeMap ∧ Instr.cls.row.selects 0x0FE0 = true ∧
    Instr.ret.row ∈ opcodeMap ∧ Instr.ret.row.selects 0x0FE0 = false := by decide

theorem witness_StepRunsDecodedInstruction : (placed 0x6A05).halt = none ∧
    decode (placed 0x6A05).fetchWord = some (.ldByte 0xA 0x05) ∧ (Instr.ldByte 0xA 0x05).WellFormed = true := by
  decide +kernel

theorem witness_UnknownOpcodeIsNoOp : State.reset.halt = none ∧ decode State.reset.fetchWord = none := by decide +kernel

theorem witness_HaltedStepIsInert : haltedState.halt = some ⟨.stackUnderflow, 0x200, 0x00EE⟩ := rfl

/-- One step for each of the six statuses. -/
theorem witness_StatusTellsPcAndHalt :
    (stepped (placed 0x6A05)).map (·.status) = some (some .completed) ∧
    (stepped (placed 0x0000)).map (·.status) = some (some (.unknownOpcode 0x0000)) ∧
    (stepped (placed 0xF00A)).map (·.status) = some (some .awaitingKey) ∧
    (stepped (placed 0xD001)).map (·.status) = some (some .awaitingVblank) ∧
    (stepped (placed 0x00EE)).map (·.status) = some (some (.fault ⟨.stackUnderflow, 0x200, 0x00EE⟩)) ∧
    (stepped haltedState).map (·.status) = some (some (.halted ⟨.stackUnderflow, 0x200, 0x00EE⟩)) := by decide +kernel

theorem witness_FaultingStepIsPrecise : (stepped ((placed 0x2200).setStack fullStack)).map (·.status)
    = some (some (.fault ⟨.stackOverflow, 0x200, 0x2200⟩)) := by decide +kernel

/-- Each fault at the boundary of its condition: 24 entries, none, key 16, address 0x04F. -/
theorem witness_FaultsAreThoseListed :
    (∃ t f, exec (.call 0x300) ((placed 0).setStack fullStack) = .next t ∧ t.status = some (.fault f) ∧
      f.kind = .stackOverflow) ∧
    (∃ t f, exec .ret (placed 0) = .next t ∧ t.status = some (.fault f) ∧ f.kind = .stackUnderflow) ∧
    (∃ t f, exec (.skp 1) ((placed 0).setV 1 16) = .next t ∧ t.status = some (.fault f) ∧
      f.kind = .keyIndexOutOfRange) ∧
    (∃ t f, exec (.ldB 1) (guardedFont ((placed 0).setI 0x04F)) = .next t ∧ t.status = some (.fault f) ∧
      f.kind = .fontWrite) ∧
    ∃ t f, exec (.storeRegs 0) (guardedFont ((placed 0).setI 0x04F)) = .next t ∧ t.status = some (.fault f) ∧
      f.kind = .fontWrite :=
  ⟨⟨_, _, rfl, rfl, rfl⟩, ⟨_, _, rfl, rfl, rfl⟩, ⟨_, _, rfl, rfl, rfl⟩, ⟨_, _, rfl, rfl, rfl⟩, ⟨_, _, rfl, rfl, rfl⟩⟩

theorem witness_BlockedStepChangesNothing :
    ((placed 0xF00A).halt = none ∧ decode (placed 0xF00A).fetchWord = some (.ldVxK 0x0) ∧ (placed 0xF00A).latch = none) ∧
    (placed 0xD001).halt = none ∧ decode (placed 0xD001).fetchWord = some (.drw 0x0 0x0 0x1) ∧
      (placed 0xD001).cfg.quirks.displayWait = true ∧ (placed 0xD001).vblankSeen = false ∧
      (placed 0xD001).cfg.quirks.displayWaitFaker = false := by decide +kernel

/-- Clause 1 with a tick and with a load of one byte too many; clause 2 with the largest load that fits. -/
theorem witness_OnlyLoadLeavesHalt :
    haltedState.halt = some ⟨.stackUnderflow, 0x200, 0x00EE⟩ ∧
    ((∀ rom, HostOp.tick = .load rom → 3584 < rom.length) ∧ ∃ t, hostCall .tick haltedState = .next t) ∧
    ((∀ rom, HostOp.load (List.replicate 3585 0#8) = .load rom → 3584 < rom.length) ∧
      ∃ t, hostCall (.load (List.replicate 3585 0#8)) haltedState = .next t) ∧
    (List.replicate 3584 (0#8)).length ≤ 3584 :=
  ⟨rfl, ⟨nofun, _, rfl⟩, ⟨fun rom h => by injection h with h; rw [← h, List.length_replicate]; decide, _, rfl⟩,
    List.length_replicate.le⟩

theorem witness_LatchReachesOnlyKeyWait : haltedState.halt ≠ none ∧
    ∀ x, decode (placed 0x6000).fetchWord ≠ some (.ldVxK x) := by decide +kernel

theorem witness_SelfJumpRepeats : (placed 0x1200).endsWell = true := by decide +kernel

theorem witness_StepKeepsInvariant : State.reset.Inv ∧ ∃ t, step State.reset = .next t :=
  ⟨⟨State.reset_memory_wf, by decide, by decide, by decide, by decide +kernel⟩, _, rfl⟩

theorem witness_HostRunKeepsInvariant : State.reset.Inv ∧
    ∃ t, hostRun [.load [0x60, 0x05], .latchKey 3, .step, .tick, .snapshot] State.reset = .next t :=
  ⟨witness_StepKeepsInvariant.1, _, rfl⟩

theorem witness_ConfigurationFontAndKeysFixed :
    (∃ t, hostRun [.load [0x60, 0x05], .step, .tick] State.reset = .next t) ∧ (0x04F#12).toNat < 80 ∧
    ∀ k, HostOp.setKeys k ∉ [HostOp.load [0x60, 0x05], .step, .tick] :=
  ⟨⟨_, rfl⟩, by decide, fun k h => by simp at h⟩

theorem witness_IndexIsTouchedOnlyByListed :
    (∃ t, exec (.storeRegs 0) (placed 0) = .next t ∧ t.i ≠ (placed 0).i) ∧
    (∃ t, exec (.ldF 1) ((placed 0).setV 1 1) = .next t ∧ t.i ≠ ((placed 0).setV 1 1).i) ∧
    (∀ x y h, Instr.jp 0x300 ≠ .drw x y h) ∧
    (∀ x, Instr.jp 0x300 ≠ .addI x ∧ Instr.jp 0x300 ≠ .ldB x ∧ Instr.jp 0x300 ≠ .storeRegs x ∧
      Instr.jp 0x300 ≠ .loadRegs x) ∧
    ∃ t, exec (.jp 0x300) (placed 0) = .next t :=
  ⟨⟨_, rfl, by decide +kernel⟩, ⟨_, rfl, by decide +kernel⟩, nofun,
    fun _ => ⟨nofun, nofun, nofun, nofun⟩, _, rfl⟩

theorem witness_StackIsTouchedOnlyByCallAndReturn :
    (∃ t, exec (.call 0x300) (placed 0) = .next t ∧ t.stack ≠ (placed 0).stack) ∧
    (∃ t, exec .ret ((placed 0).setStack [0x204]) = .next t ∧ t.stack ≠ [0x204]) ∧
    Instr.jp 0x300 ≠ .ret ∧ (∀ nnn, Instr.jp 0x300 ≠ .call nnn) ∧ ∃ t, exec (.jp 0x300) (placed 0) = .next t :=
  ⟨⟨_, rfl, by decide +kernel⟩, ⟨_, rfl, by decide +kernel⟩, by decide, nofun, _, rfl⟩

/-- The first address outside the font, 0x050, changes; so does a pixel, by CLS. -/
theorem witness_DisplayAndMemoryWriters :
    (∃ t, exec .cls (withPixel 0 0 (placed 0)) = .next t ∧ t.display ≠ (withPixel 0 0 (placed 0)).display) ∧
    (∃ t, exec (.storeRegs 0) (((placed 0).setV 0 9).setI 0x050) = .next t ∧
      t.readByte 0x050 ≠ (((placed 0).setV 0 9).setI 0x050).readByte 0x050) ∧
    ∃ t, exec (.ldB 1) (((placed 0).setV 1 9).setI 0x300) = .next t ∧
      t.readByte 0x302 ≠ (((placed 0).setV 1 9).setI 0x300).readByte 0x302 :=
  ⟨⟨_, rfl, by decide +kernel⟩, ⟨_, rfl, by decide +kernel⟩, ⟨_, rfl, by decide +kernel⟩⟩

theorem witness_FlagRegisterWriters :
    (∃ t, exec (.subReg 1 2) (placed 0) = .next t ∧ t.getV vf ≠ (placed 0).getV vf) ∧
    (∃ t, exec (.orReg 1 2) ((placed 0).setV vf 9) = .next t ∧ t.getV vf ≠ ((placed 0).setV vf 9).getV vf) ∧
    ∃ t, exec (.ldByte vf 5) (placed 0) = .next t ∧ t.getV vf ≠ (placed 0).getV vf :=
  ⟨⟨_, rfl, by decide +kernel⟩, ⟨_, rfl, by decide +kernel⟩, ⟨_, rfl, by decide +kernel⟩⟩

theorem witness_TimersMoveOnlyByListed :
    (∃ t, exec (.ldDtVx 1) ((placed 0).setV 1 9) = .next t ∧ t.dt ≠ 0) ∧
    (∃ t, exec (.drw 0 0 0) (quirked (fun q => { q with displayWaitFaker := true }) ((placed 0).setSt 1)) = .next t ∧
      t.st ≠ 1) ∧
    ∃ t, exec (.drw 0 0 0) (placedTicked 0) = .next t ∧ t.vblankSeen ≠ true :=
  ⟨⟨_, rfl, by decide +kernel⟩, ⟨_, rfl, by decide +kernel⟩, ⟨_, rfl, by decide +kernel⟩⟩

theorem witness_LoadInstallsRom : (List.replicate 3584 (0xFF#8)).length ≤ 3584 := by decide +kernel

theorem witness_LoadRefusesOversizedRom : 3584 < (List.replicate 3585 (0xFF#8)).length := by decide +kernel

theorem witness_SnapshotShowsState : 0 < (snapshot ((placed 0).setStack [0xABC])).stack.length := by decide +kernel

/-- A gate that is open because a tick was seen, and one that is open because `display_wait` is off. -/
theorem witness_DrwTogglesHitPixels : (placedTicked 0).displayFits ∧ (placedTicked 0).vblankSeen = true ∧
    (quirked (fun q => { q with displayWait := false }) (placed 0)).cfg.quirks.displayWait = false ∧
    (Config.hardware.quirks.clipping = true ∧ { Config.hardware.quirks with clipping := false }.clipping = false) :=
  ⟨⟨by decide, by decide +kernel⟩, by decide, by decide, by decide, by decide⟩

/-- The clauses on VF: a set pixel that is hit once; a pixel that one draw hits twice (wrapping on a display 8 columns by 1
row); and a draw in which no pixel that is hit was set. -/
theorem witness_DrwTogglesHitPixels_flag :
    ((0 < (placedTicked 0).cfg.width ∧ 0 < (placedTicked 0).cfg.height) ∧
      (withPixel 0 0 ((placedTicked 0).setI 0)).pix 0 0 = true ∧
      1 ≤ (withPixel 0 0 ((placedTicked 0).setI 0)).spriteHits 0 0 1 0 0) ∧
    2 ≤ (State.construct { Config.hardware with
        width := 8, height := 1, quirks := { Quirks.hardware with clipping := false } }).spriteHits 0 0 2 0 0 ∧
    ∀ c r, c < (placedTicked 0).cfg.width → r < (placedTicked 0).cfg.height →
      ((placedTicked 0).pix c r = false ∧ (placedTicked 0).spriteHits 0 0 0 c r ≤ 1) ∨
        (placedTicked 0).spriteHits 0 0 0 c r = 0 :=
  ⟨by decide +kernel, by decide +kernel, fun _ _ _ _ => .inr rfl⟩

theorem witness_DrwGate :
    ((placed 0).cfg.quirks.displayWait = true ∧ (placed 0).vblankSeen = false ∧
      (placed 0).cfg.quirks.displayWaitFaker = false) ∧
    (let s := quirked (fun q => { q with displayWaitFaker := true }) (placed 0);
      s.cfg.quirks.displayWait = true ∧ s.vblankSeen = false ∧ s.cfg.quirks.displayWaitFaker = true) ∧
    (quirked (fun q => { q with displayWait := false }) (placed 0)).cfg.quirks.displayWait = false := by decide

/-- A second draw after a tick, of the one-row glyph row 0xF0 at (0, 0) of a clear display: a hit pixel was clear. -/
theorem witness_DrawTwiceRestoresDisplay :
    (placedTicked 0).displayFits ∧ (placedTicked 0).drawGated = false ∧
    (∃ t, exec (.drw 0 0 1) (placedTicked 0) = .next t ∧ t.tick.display = t.display ∧ t.tick.mem = (placedTicked 0).mem ∧
      t.tick.cfg = (placedTicked 0).cfg ∧ t.tick.i = (placedTicked 0).i ∧ t.tick.getV 0 = (placedTicked 0).getV 0 ∧
      t.tick.drawGated = false) ∧
    0 < (placedTicked 0).cfg.width ∧ 0 < (placedTicked 0).cfg.height ∧ (placedTicked 0).pix 0 0 = false ∧
    1 ≤ (placedTicked 0).spriteHits 0 0 1 0 0 :=
  ⟨witness_DrwTogglesHitPixels.1, by decide, ⟨_, rfl, rfl, rfl, rfl, rfl, rfl, rfl⟩, by decide +kernel, by decide +kernel,
    by decide +kernel, by decide +kernel⟩

/-- Why R97 (d) is stated for a hit pixel that was clear: with every hit pixel already set, the first draw clears them all
(VF = 1) and the second sets them again, so VF = 0 after the second although set bits land on the display. -/
theorem test_draw_twice_on_set_pixels :
    (stepped (withPixel 0 0 ((((placedTicked 0xD001).setI 0x300).writeByte 0x300 0x80)))).map
      (fun t => (setPixels t, t.getV vf)) = some ([], 1) ∧
    ((stepped (withPixel 0 0 ((((placedTicked 0xD001).setI 0x300).writeByte 0x300 0x80)))).bind
      (fun t => stepped (t.tick.setPc 0x200))).map (fun t => (setPixels t, t.getV vf)) = some ([(0, 0)], 0) := by
  decide +kernel

theorem witness_RetPopsIntoPc : ((placed 0).setStack [0x204]).stack = 0x204 :: [] ∧ (placed 0).stack = [] := by decide

theorem witness_CallPushesAndJumps : (let s := (placed 0).setStack (fullStack.drop 1); s.sp < s.cfg.stackDepth) ∧
    (let s := (placed 0).setStack fullStack; s.sp = s.cfg.stackDepth) := by decide

/-- Twenty-four calls from an empty stack, the capacity. -/
theorem witness_CallsThenReturnsUnwind :
    (placed 0).sp + (List.replicate 23 (0x300#12)).length + 1 ≤ (placed 0).cfg.stackDepth := by decide

/-- With `vf_reset` on, for x = 1 and x = F; with it off. -/
theorem witness_LogicOperations :
    (Instr.andReg 1 2, (placed 0).getV 1 &&& (placed 0).getV 2) ∈ [(Instr.orReg 1 2, (placed 0).getV 1 ||| (placed 0).getV 2),
      (Instr.andReg 1 2, (placed 0).getV 1 &&& (placed 0).getV 2), (Instr.xorReg 1 2, (placed 0).getV 1 ^^^ (placed 0).getV 2)] ∧
    (placed 0).cfg.quirks.vfReset = true ∧ (1#4) ≠ vf ∧
    (quirked (fun q => { q with vfReset := false }) (placed 0)).cfg.quirks.vfReset = false := by decide

theorem witness_AddSetsCarry : (0xE#4) ≠ vf := by decide

theorem witness_SubtractionsSetNoBorrow : (0x0#4) ≠ vf := by decide

theorem witness_ShiftsSetBitOut : (let s := (placed 0).setV 2 0x81;
    0x81 = (if s.cfg.quirks.shifting then s.getV 1 else s.getV 2).toNat) ∧ (1#4) ≠ vf := by decide +kernel

theorem witness_RndMasksRandomByte : ((Instr.rnd 0 0) = .rnd 0 (0#8)) := rfl

/-- The first clause with a font cell among the three and the store discarded, and with 0x050 as its lowest address under
`P_FONT_WRITE = fault`; the second with 0x04F. Digits of 255. -/
theorem witness_BcdStoresDigits :
    ((placed 0).setI 0xFFF).cfg.fontWrite = .discard ∧
    (∀ k, k < 3 → 0x050 ≤ ((guardedFont ((placed 0).setI 0x050)).indexed k).toNat) ∧
    (2, 5) ∈ [(0, 255 / 100), (1, 255 / 10 % 10), (2, 255 % 10)] ∧
    (guardedFont ((placed 0).setI 0x04F)).cfg.fontWrite = .fault ∧ 0 < 3 ∧
    ((guardedFont ((placed 0).setI 0x04F)).indexed 0).toNat < 0x050 := by decide +kernel

/-- The same boundaries; the fault on the last register's address, 0x000 after 0xFF1 + 15. -/
theorem witness_StoreRegistersToMemory :
    ((placed 0).setI 0xFF8).cfg.fontWrite = .discard ∧
    (∀ k, k ≤ (0xF#4).toNat → 0x050 ≤ ((guardedFont ((placed 0).setI 0xFF0)).indexed k).toNat) ∧
    (0xF#4).toNat ≤ (0xF#4).toNat ∧ (placed 0).cfg.quirks.memoryIncrement = true ∧
    (quirked (fun q => { q with memoryIncrement := false }) (placed 0)).cfg.quirks.memoryIncrement = false ∧
    (guardedFont ((placed 0).setI 0xFF1)).cfg.fontWrite = .fault ∧ 15 ≤ (0xF#4).toNat ∧
    ((guardedFont ((placed 0).setI 0xFF1)).indexed 15).toNat < 0x050 := by
  refine ⟨by decide, ?_, by decide, by decide, by decide, by decide, by decide, by decide +kernel⟩
  intro k hk
  have h : ∀ j : Fin 16, 0x050 ≤ ((guardedFont ((placed 0).setI 0xFF0)).indexed j.val).toNat := by decide +kernel
  exact h ⟨k, Nat.lt_succ_of_le hk⟩

theorem witness_LoadRegistersFromMemory : (0x0#4).toNat ≤ (0x0#4).toNat ∧
    (placed 0).cfg.quirks.memoryIncrement = true ∧
    (quirked (fun q => { q with memoryIncrement := false }) (placed 0)).cfg.quirks.memoryIncrement = false := by decide

/-- At the lowest address outside the font and at the highest that holds the whole store. -/
theorem witness_StoreIsSeenByNextFetch :
    (let s := ((placed 0).setI 0x050).setPc 0x050;
      1 ≤ (0x1#4).toNat ∧ s.iAddr = s.pc ∧ 0x050 ≤ s.pc.toNat ∧ s.pc.toNat + (0x1#4).toNat < 0x1000) ∧
    (let s := ((placed 0).setI 0xFF0).setPc 0xFF0;
      1 ≤ (0xF#4).toNat ∧ s.iAddr = s.pc ∧ 0x050 ≤ s.pc.toNat ∧ s.pc.toNat + (0xF#4).toNat < 0x1000) := by decide +kernel

/-- Key 15, the last; 16 as key 0 under `low_nibble`; 16 as the first that faults. -/
theorem witness_KeySkips :
    ((0xF#4).toNat = (((placed 0).setV 1 15).getV 1).toNat % 16 ∧ (((placed 0).setV 1 15).getV 1).toNat < 16) ∧
    ((0x0#4).toNat = ((lowNibbleKeys ((placed 0).setV 1 16)).getV 1).toNat % 16 ∧
      (lowNibbleKeys ((placed 0).setV 1 16)).cfg.keyOutOfRange = .lowNibble) ∧
    16 ≤ (((placed 0).setV 1 16).getV 1).toNat ∧ ((placed 0).setV 1 16).cfg.keyOutOfRange = .fault := by decide +kernel

theorem witness_KeyWait : ((placed 0).setLatch (some 0xF)).latch = some 0xF ∧ (placed 0).latch = none := by decide

end Sys2Proof.Tests
end

section
/-! PROOFS. What every instruction writes, read off from the frame `exec_same`, and what becomes of the fields the invariant
speaks of; with these, that a step keeps the invariant (10_state.md R27, R29, R33). -/

namespace Sys2Proof.Machine

/-! ### Who writes a part: the frame, read backwards -/

/-- A part that an instruction changed is one it may write. -/
theorem mayWrite_of_changed {i : Instr} {s t : State} (h : exec i s = .next t) {p : Part} (hp : ¬ p.Same s t) :
    mayWrite i s p :=
  by_contra fun hn => hp (exec_same h p hn)

/-- The stored bytes are bytes, at the addresses from `I` on. -/
theorem State.mem_storedParts {s : State} {count : Nat} {p : Part} :
    p ∈ s.storedParts count ↔ ∃ k, k < count ∧ p = .byte (s.indexed k) := by
  simp only [State.storedParts, List.mem_map, List.mem_range, eq_comm]

/-- The loaded registers are V0 to Vx. -/
theorem mem_regsTo {x : RegIx} {p : Part} : p ∈ regsTo x ↔ ∃ k, k ≤ x.toNat ∧ p = .reg (BitVec.ofNat 4 k) := by
  simp only [regsTo, List.mem_map, List.mem_range, Nat.lt_succ_iff, eq_comm]

theorem not_mayWrite_config (i : Instr) (s : State) : ¬ mayWrite i s .config := by
  cases i <;> simp [mayWrite, State.mem_storedParts, mem_regsTo]

theorem not_mayWrite_keys (i : Instr) (s : State) : ¬ mayWrite i s .keys := by
  cases i <;> simp [mayWrite, State.mem_storedParts, mem_regsTo]

theorem exec_cfg {i : Instr} {s t : State} (h : exec i s = .next t) : t.cfg = s.cfg :=
  exec_same h .config (not_mayWrite_config i s)

theorem exec_keys {i : Instr} {s t : State} (h : exec i s = .next t) : t.keys = s.keys :=
  exec_same h .keys (not_mayWrite_keys i s)

/-- The writers of `I` (10_state.md R28). -/
theorem mayWrite_index {i : Instr} {s : State} (h : mayWrite i s .index) :
    (∃ nnn, i = .ldI nnn) ∨ (∃ x, i = .addI x ∨ i = .ldF x) ∨
      (s.cfg.quirks.memoryIncrement = true ∧ ∃ x, i = .storeRegs x ∨ i = .loadRegs x) := by
  cases i with
  | ldI nnn => exact .inl ⟨nnn, rfl⟩
  | addI x => exact .inr (.inl ⟨x, .inl rfl⟩)
  | ldF x => exact .inr (.inl ⟨x, .inr rfl⟩)
  | storeRegs x => exact .inr (.inr ⟨by simpa [mayWrite, State.mem_storedParts] using h, x, .inl rfl⟩)
  | loadRegs x => exact .inr (.inr ⟨by simpa [mayWrite, mem_regsTo] using h, x, .inr rfl⟩)
  | _ => simp [mayWrite, State.mem_storedParts] at h

/-- The writers of the stack (10_state.md R30). -/
theorem mayWrite_stack {i : Instr} {s : State} (h : mayWrite i s .stack) : i = .ret ∨ ∃ nnn, i = .call nnn := by
  cases i with
  | ret => exact .inl rfl
  | call nnn => exact .inr ⟨nnn, rfl⟩
  | _ => simp [mayWrite, State.mem_storedParts, mem_regsTo] at h

/-- The writers of a byte of memory, at the addresses from `I` on (20_memory.md R58). -/
theorem mayWrite_byte {i : Instr} {s : State} {a : Addr} (h : mayWrite i s (.byte a)) :
    ∃ x, (i = .ldB x ∧ ∃ k, k < 3 ∧ a = s.indexed k) ∨ (i = .storeRegs x ∧ ∃ k, k ≤ x.toNat ∧ a = s.indexed k) := by
  cases i with
  | ldB x => exact ⟨x, .inl ⟨rfl, by simpa [mayWrite, State.mem_storedParts] using h⟩⟩
  | storeRegs x =>
    exact ⟨x, .inr ⟨rfl, by simpa [mayWrite, State.mem_storedParts, Nat.lt_succ_iff] using h⟩⟩
  | _ => simp [mayWrite, mem_regsTo] at h

/-- VF is among V0 to Vx only when x = F. -/
theorem vf_mem_regsTo {x : RegIx} (h : .reg vf ∈ regsTo x) : x = vf := by
  obtain ⟨k, hk, e⟩ := mem_regsTo.mp h
  have hx := x.isLt
  have hv : 15 = k % 16 := by simpa using congrArg BitVec.toNat (Part.reg.inj e)
  exact BitVec.eq_of_toNat_eq (show x.toNat = 15 by omega)

/-! ### What becomes of the fields the invariant speaks of -/

/-- The memory list, `I`, the stack and the display buffer are as before. -/
def State.SameCore (s t : State) : Prop := t.mem = s.mem ∧ t.i = s.i ∧ t.stack = s.stack ∧ t.display = s.display

theorem State.SameCore.refl (s : State) : s.SameCore s := ⟨rfl, rfl, rfl, rfl⟩

theorem State.skipIf_sameCore (s : State) (c : Bool) : s.SameCore (s.skipIf c) := by
  obtain ⟨a, ha⟩ := s.skipIf_frame c
  rw [ha]
  exact ⟨rfl, rfl, rfl, rfl⟩

theorem State.setVThenReset_sameCore (s : State) (x : RegIx) (b : Byte) : s.SameCore (s.setVThenReset x b) := by
  unfold State.setVThenReset
  split <;> exact ⟨rfl, rfl, rfl, rfl⟩

/-- What an instruction can do to those fields: memory takes one store from `I` on, `I` is written below 0x1000, the stack
is popped, or pushed where there is room, and the display is cleared by 00E0 or drawn on by Dxyn. -/
structure CoreEffect (i : Instr) (s t : State) : Prop where
  memory : t.mem = s.mem ∨ ∃ l, t.mem = (s.writeBytes s.iAddr l).mem
  index : t.i = s.i ∨ t.i.toNat < 0x1000
  stack : t.stack = s.stack ∨ (∃ a, s.stack = a :: t.stack) ∨ (s.sp < s.cfg.stackDepth ∧ ∃ a, t.stack = a :: s.stack)
  display : t.display = s.display ∨ (i = .cls ∧ t.display = Display.blank s.cfg.width s.cfg.height) ∨
    ∃ x y n, i = .drw x y n ∧ t.display = (s.drawSprite x y n).1

theorem State.SameCore.effect {i : Instr} {s t : State} (h : s.SameCore t) : CoreEffect i s t := by
  obtain ⟨hmem, hidx, hstack, hdisplay⟩ := h
  exact ⟨.inl hmem, .inl hidx, .inl hstack, .inl hdisplay⟩

theorem State.raise_effect (i : Instr) (s : State) (kind : FaultKind) : CoreEffect i s (s.raise kind) :=
  State.SameCore.effect ⟨rfl, rfl, rfl, rfl⟩

theorem State.block_effect (i : Instr) (s : State) (r : Status) : CoreEffect i s (s.block r) :=
  State.SameCore.effect ⟨rfl, rfl, rfl, rfl⟩

theorem State.setI_effect (i : Instr) (s : State) (n : BitVec 16) : CoreEffect i s (s.setI n) :=
  ⟨.inl rfl, .inr (s.setI_lt n), .inl rfl, .inl rfl⟩

theorem State.writeBytes_effect (i : Instr) (s : State) (l : List Byte) :
    CoreEffect i s (s.writeBytes s.iAddr l) := by
  obtain ⟨m, hm⟩ := s.writeBytes_frame s.iAddr l
  exact ⟨.inr ⟨l, rfl⟩, .inl (by rw [hm]; rfl), .inl (by rw [hm]; rfl), .inl (by rw [hm]; rfl)⟩

theorem State.loadRegistersTo_effect (i : Instr) (s : State) (x : RegIx) : CoreEffect i s (s.loadRegistersTo x) := by
  obtain ⟨⟨file, hf⟩, _⟩ := s.loadRegistersTo_spec x
  rw [hf]
  exact State.SameCore.effect ⟨rfl, rfl, rfl, rfl⟩

theorem CoreEffect.complete {i : Instr} {s t : State} (h : CoreEffect i s t) : CoreEffect i s t.complete :=
  ⟨h.memory, h.index, h.stack, h.display⟩

theorem CoreEffect.stepIndex {i : Instr} {s t : State} (h : CoreEffect i s t) (x : RegIx) :
    CoreEffect i s (t.stepIndex x) := by
  unfold State.stepIndex
  split
  · exact ⟨h.memory, .inr (t.setI_lt _), h.stack, h.display⟩
  · exact h

/-- The body of a draw, run from a state `u` that draws what `s` draws: `s` itself, or `s` after a tick. -/
theorem State.SameCore.drawBody_effect {s u : State} (h : s.SameCore u) {x y : RegIx} {n : Nibble}
    (hd : u.drawSprite x y n = s.drawSprite x y n) : CoreEffect (.drw x y n) s (u.drawBody x y n) := by
  obtain ⟨hmem, hidx, hstack, _⟩ := h
  exact ⟨.inl hmem, .inl hidx, .inl hstack, .inr (.inr ⟨x, y, n, rfl, congrArg Prod.fst hd⟩)⟩

theorem State.tick_sameCore (s : State) : s.SameCore s.tick := ⟨rfl, rfl, rfl, rfl⟩

/-- WHAT EVERY INSTRUCTION DOES to the fields the invariant speaks of. -/
theorem exec_effect {i : Instr} {s t : State} (h : exec i s = .next t) : CoreEffect i s t := by
  cases i with
  | cls => cases h; exact ⟨.inl rfl, .inl rfl, .inl rfl, .inr (.inl ⟨rfl, rfl⟩)⟩
  | ret =>
    cases e : s.stack with
    | nil => rw [exec_ret_nil e] at h; cases h; exact s.raise_effect _ _
    | cons a l =>
      rw [exec_ret_cons e] at h
      cases h
      exact ⟨.inl rfl, .inl rfl, .inr (.inl ⟨a, e⟩), .inl rfl⟩
  | call nnn =>
    by_cases e : s.sp < s.cfg.stackDepth
    · rw [exec_call_room nnn e] at h
      cases h
      exact ⟨.inl rfl, .inl rfl, .inr (.inr ⟨e, s.pc, rfl⟩), .inl rfl⟩
    · rw [exec_call_full nnn (Nat.not_lt.mp e)] at h
      cases h
      exact s.raise_effect _ _
  | drw x y n =>
    cases hg : s.drawGated with
    | false =>
      rw [exec_drw_open x y n hg] at h
      cases h
      exact (State.SameCore.refl s).drawBody_effect rfl
    | true =>
      cases hf : s.cfg.quirks.displayWaitFaker with
      | true =>
        rw [exec_drw_faker x y n hg hf] at h
        cases h
        exact s.tick_sameCore.drawBody_effect (s.tick_drawSprite x y n)
      | false =>
        rw [exec_drw_blocked x y n hg hf] at h
        cases h
        exact s.block_effect _ _
  | skp x =>
    cases e : keyIndex s.cfg.keyOutOfRange (s.getV x) with
    | none => rw [exec_skp_none e] at h; cases h; exact s.raise_effect _ _
    | some k => rw [exec_skp_key e] at h; cases h; exact (s.skipIf_sameCore _).effect.complete
  | sknp x =>
    cases e : keyIndex s.cfg.keyOutOfRange (s.getV x) with
    | none => rw [exec_sknp_none e] at h; cases h; exact s.raise_effect _ _
    | some k => rw [exec_sknp_key e] at h; cases h; exact (s.skipIf_sameCore _).effect.complete
  | ldVxK x =>
    cases e : s.latch with
    | none => rw [exec_ldVxK_none x e] at h; cases h; exact s.block_effect _ _
    | some k => rw [exec_ldVxK_some x e] at h; cases h; exact State.SameCore.effect ⟨rfl, rfl, rfl, rfl⟩
  | ldB x =>
    cases e : s.storeFaults 3 with
    | true => rw [exec_ldB_fault x e] at h; cases h; exact s.raise_effect _ _
    | false => rw [exec_ldB_store x e] at h; cases h; exact (s.writeBytes_effect _ _).complete
  | storeRegs x =>
    cases e : s.storeFaults (x.toNat + 1) with
    | true => rw [exec_storeRegs_fault x e] at h; cases h; exact s.raise_effect _ _
    | false =>
      rw [exec_storeRegs_store x e] at h
      cases h
      exact ((s.writeBytes_effect _ _).stepIndex x).complete
  | loadRegs x => cases h; exact ((s.loadRegistersTo_effect _ x).stepIndex x).complete
  | ldI nnn => cases h; exact (s.setI_effect _ _).complete
  | addI x => cases h; exact (s.setI_effect _ _).complete
  | ldF x => cases h; exact (s.setI_effect _ _).complete
  | seByte x nn => cases h; exact (s.skipIf_sameCore _).effect.complete
  | sneByte x nn => cases h; exact (s.skipIf_sameCore _).effect.complete
  | seReg x y => cases h; exact (s.skipIf_sameCore _).effect.complete
  | sneReg x y => cases h; exact (s.skipIf_sameCore _).effect.complete
  | orReg x y => cases h; exact (s.setVThenReset_sameCore x _).effect.complete
  | andReg x y => cases h; exact (s.setVThenReset_sameCore x _).effect.complete
  | xorReg x y => cases h; exact (s.setVThenReset_sameCore x _).effect.complete
  | _ => cases h; exact State.SameCore.effect ⟨rfl, rfl, rfl, rfl⟩

/-! ### The invariant -/

/-- The invariant speaks of the configuration and of those fields alone. -/
theorem State.Inv.congr {s t : State} (hs : s.Inv) (hc : t.cfg = s.cfg) (h : s.SameCore t) : t.Inv := by
  obtain ⟨hmem, hidx, hstack, hdisplay⟩ := h
  exact ⟨hmem ▸ hs.memory, hidx ▸ hs.index, by simpa [State.sp, hstack, hc] using hs.stack,
    by simpa [State.displayFits, hdisplay, hc] using hs.display⟩

theorem State.Inv.exec {i : Instr} {s t : State} (hs : s.Inv) (h : exec i s = .next t) : t.Inv where
  memory := by
    rcases (exec_effect h).memory with e | ⟨l, e⟩
    · exact e ▸ hs.memory
    · exact e ▸ s.writeBytes_wf s.iAddr l hs.memory
  index := (exec_effect h).index.elim (fun e => e ▸ hs.index) id
  stack := by
    have hsp : s.stack.length ≤ s.cfg.stackDepth := hs.stack
    rw [State.sp, exec_cfg h]
    rcases (exec_effect h).stack with e | ⟨a, e⟩ | ⟨room, a, e⟩
    · rwa [e]
    · rw [e, List.length_cons] at hsp
      omega
    · rw [e, List.length_cons]
      exact room
  display := by
    show Display.Fits t.display t.cfg.width t.cfg.height
    rw [exec_cfg h]
    rcases (exec_effect h).display with e | ⟨_, e⟩ | ⟨x, y, n, _, e⟩ <;> rw [e]
    · exact hs.display
    · exact Display.blank_fits _ _
    · exact s.drawSprite_fits x y n hs.display

theorem State.Inv.step {s t : State} (hs : s.Inv) (h : step s = .next t) : t.Inv := by
  rcases step_cases h with ⟨f, _, rfl⟩ | ⟨_, _, rfl⟩ | ⟨i, u, _, _, hu, _, rfl⟩
  · exact hs.congr rfl ⟨rfl, rfl, rfl, rfl⟩
  · exact hs.congr rfl ⟨rfl, rfl, rfl, rfl⟩
  · have hadv : s.advance.Inv := hs.congr rfl ⟨rfl, rfl, rfl, rfl⟩
    exact (hadv.exec hu).congr rfl ⟨rfl, rfl, rfl, rfl⟩

/-- Settles O19: what an instruction does to the fields of the invariant (`exec_effect`) keeps it, and so do the fetch's
advance and the end of a step, which touch none of them. -/
theorem stepKeepsInvariant : Obligations.StepKeepsInvariant := by
  unfold Obligations.StepKeepsInvariant
  exact fun _ _ hs h => hs.step h

end Sys2Proof.Machine
end

section
/-! PROOFS. What the instructions pass through without reading it: `I` (10_state.md R28), the stack (R30) and the reported
status (R40). All three facts are one: an instruction that names none of them does the same whatever they hold. -/

namespace Sys2Proof.Machine

/-- `I`, the stack and the reported status replaced by functions of themselves. -/
def State.remap (ι : BitVec 16 → BitVec 16) (σ : List Addr → List Addr) (ρ : Option Status → Option Status)
    (s : State) : State :=
  { s with i := ι s.i, stack := σ s.stack, status := ρ s.status }

section
variable (ι : BitVec 16 → BitVec 16) (σ : List Addr → List Addr) (ρ : Option Status → Option Status) (s : State)

theorem State.remap_skipIf (c : Bool) : (s.remap ι σ ρ).skipIf c = (s.skipIf c).remap ι σ ρ := by
  simp only [State.skipIf, apply_ite (State.remap ι σ ρ)]
  rfl

theorem State.remap_setVThenReset (x : RegIx) (b : Byte) :
    (s.remap ι σ ρ).setVThenReset x b = (s.setVThenReset x b).remap ι σ ρ := by
  simp only [State.setVThenReset, apply_ite (State.remap ι σ ρ)]
  rfl

theorem State.remap_stepIndex (x : RegIx) : (s.remap id σ ρ).stepIndex x = (s.stepIndex x).remap id σ ρ := by
  simp only [State.stepIndex, apply_ite (State.remap id σ ρ)]
  rfl

theorem State.remap_writeByte (a : Addr) (x : Byte) :
    (s.remap ι σ ρ).writeByte a x = (s.writeByte a x).remap ι σ ρ := by
  simp only [State.writeByte, apply_ite (State.remap ι σ ρ)]
  rfl

theorem State.remap_writeBytes (a : Addr) (l : List Byte) :
    (s.remap ι σ ρ).writeBytes a l = (s.writeBytes a l).remap ι σ ρ := by
  induction l generalizing s a with
  | nil => rfl
  | cons x rest ih => rw [State.writeBytes, State.writeBytes, State.remap_writeByte, ih]

theorem State.remap_tick : (s.remap ι σ ρ).tick = s.tick.remap ι σ ρ := rfl

/-- The body of a draw completes, so it overwrites the status. -/
theorem State.remap_drawBody (x y : RegIx) (n : Nibble) :
    (s.remap id σ ρ).drawBody x y n = (s.drawBody x y n).remap id σ id := rfl

theorem State.remap_loadRegistersTo (x : RegIx) :
    (s.remap id σ ρ).loadRegistersTo x = (s.loadRegistersTo x).remap id σ ρ :=
  List.foldl_hom (State.remap id σ ρ) (fun _ _ => rfl)

end

/-- Completing overwrites the status and passes `I` and the stack through. -/
theorem next_complete_remap {ι : BitVec 16 → BitVec 16} {σ : List Addr → List Addr} {ρ : Option Status → Option Status}
    {t u : State} (h : t = u.remap ι σ ρ) :
    (.next t.complete : Host.Outcome State Fault Refusal) = mapNext (State.remap ι σ id) (.next u.complete) := by
  rw [h]
  rfl

/-- The instructions that read or write `I` (10_state.md R28). -/
def usesIndex : Instr → Bool
  | .ldI _ | .addI _ | .ldF _ | .drw _ _ _ | .ldB _ | .storeRegs _ | .loadRegs _ => true
  | _ => false

/-- The instructions that read or write the stack (10_state.md R30). -/
def usesStack : Instr → Bool
  | .ret | .call _ => true
  | _ => false

/-- AN INSTRUCTION PASSES THROUGH WHAT IT DOES NOT NAME: replacing `I` and the stack, where it uses neither, and the
reported status, always, before the instruction is replacing `I` and the stack after it. -/
theorem exec_remap {ι : BitVec 16 → BitVec 16} {σ : List Addr → List Addr} (ρ : Option Status → Option Status)
    {i : Instr} (s : State) (hι : usesIndex i = true → ι = id) (hσ : usesStack i = true → σ = id) :
    exec i (s.remap ι σ ρ) = mapNext (State.remap ι σ id) (exec i s) := by
  cases i with
  | ret =>
    obtain rfl := hσ rfl
    cases e : s.stack with
    | nil => rw [exec_ret_nil e, exec_ret_nil (s := s.remap ι id ρ) e]; rfl
    | cons a l => rw [exec_ret_cons e, exec_ret_cons (s := s.remap ι id ρ) e]; rfl
  | call nnn =>
    obtain rfl := hσ rfl
    by_cases e : s.sp < s.cfg.stackDepth
    · rw [exec_call_room nnn e, exec_call_room (s := s.remap ι id ρ) nnn e]; rfl
    · have e := Nat.not_lt.mp e
      rw [exec_call_full nnn e, exec_call_full (s := s.remap ι id ρ) nnn e]; rfl
  | drw x y n =>
    obtain rfl := hι rfl
    cases hg : s.drawGated with
    | false => rw [exec_drw_open x y n hg, exec_drw_open (s := s.remap id σ ρ) x y n hg, State.remap_drawBody]; rfl
    | true =>
      cases hf : s.cfg.quirks.displayWaitFaker with
      | true =>
        rw [exec_drw_faker x y n hg hf, exec_drw_faker (s := s.remap id σ ρ) x y n hg hf, State.remap_tick,
          State.remap_drawBody]
        rfl
      | false => rw [exec_drw_blocked x y n hg hf, exec_drw_blocked (s := s.remap id σ ρ) x y n hg hf]; rfl
  | skp x =>
    cases e : keyIndex s.cfg.keyOutOfRange (s.getV x) with
    | none => rw [exec_skp_none e, exec_skp_none (s := s.remap ι σ ρ) e]; rfl
    | some k =>
      rw [exec_skp_key e, exec_skp_key (s := s.remap ι σ ρ) e]
      exact next_complete_remap (s.remap_skipIf ι σ ρ _)
  | sknp x =>
    cases e : keyIndex s.cfg.keyOutOfRange (s.getV x) with
    | none => rw [exec_sknp_none e, exec_sknp_none (s := s.remap ι σ ρ) e]; rfl
    | some k =>
      rw [exec_sknp_key e, exec_sknp_key (s := s.remap ι σ ρ) e]
      exact next_complete_remap (s.remap_skipIf ι σ ρ _)
  | ldVxK x =>
    cases e : s.latch with
    | none => rw [exec_ldVxK_none x e, exec_ldVxK_none (s := s.remap ι σ ρ) x e]; rfl
    | some k => rw [exec_ldVxK_some x e, exec_ldVxK_some (s := s.remap ι σ ρ) x e]; rfl
  | ldB x =>
    obtain rfl := hι rfl
    cases e : s.storeFaults 3 with
    | true => rw [exec_ldB_fault x e, exec_ldB_fault (s := s.remap id σ ρ) x e]; rfl
    | false =>
      rw [exec_ldB_store x e, exec_ldB_store (s := s.remap id σ ρ) x e]
      exact next_complete_remap (s.remap_writeBytes id σ ρ _ _)
  | storeRegs x =>
    obtain rfl := hι rfl
    cases e : s.storeFaults (x.toNat + 1) with
    | true => rw [exec_storeRegs_fault x e, exec_storeRegs_fault (s := s.remap id σ ρ) x e]; rfl
    | false =>
      rw [exec_storeRegs_store x e, exec_storeRegs_store (s := s.remap id σ ρ) x e]
      exact next_complete_remap ((congrArg (·.stepIndex x) (s.remap_writeBytes id σ ρ _ _)).trans
        (State.remap_stepIndex σ ρ _ x))
  | loadRegs x =>
    obtain rfl := hι rfl
    exact next_complete_remap ((congrArg (·.stepIndex x) (s.remap_loadRegistersTo σ ρ x)).trans
      (State.remap_stepIndex σ ρ _ x))
  | ldI nnn => obtain rfl := hι rfl; rfl
  | addI x => obtain rfl := hι rfl; rfl
  | ldF x => obtain rfl := hι rfl; rfl
  | seByte x nn => exact next_complete_remap (s.remap_skipIf ι σ ρ _)
  | sneByte x nn => exact next_complete_remap (s.remap_skipIf ι σ ρ _)
  | seReg x y => exact next_complete_remap (s.remap_skipIf ι σ ρ _)
  | sneReg x y => exact next_complete_remap (s.remap_skipIf ι σ ρ _)
  | orReg x y => exact next_complete_remap (s.remap_setVThenReset ι σ ρ x _)
  | andReg x y => exact next_complete_remap (s.remap_setVThenReset ι σ ρ x _)
  | xorReg x y => exact next_complete_remap (s.remap_setVThenReset ι σ ρ x _)
  | _ => rfl

/-- Replacing nothing changes no outcome. -/
theorem mapNext_remap_id (o : Host.Outcome State Fault Refusal) : mapNext (State.remap id id id) o = o := by
  cases o <;> rfl

/-! ### A step, one equation per course (30_encoding.md R78, R83, R86) -/

theorem step_of_halted {s : State} {f : FaultRecord} (h : s.halt = some f) :
    step s = .next (s.reportHalted f).endStep := by
  simp only [step, h]

theorem step_of_unknown {s : State} (h : s.halt = none) (hd : decode s.fetchWord = none) :
    step s = .next (s.advance.unknownOpcode s.fetchWord).endStep := by
  simp only [step, h, hd]

theorem step_of_instr {s : State} {i : Instr} (h : s.halt = none) (hd : decode s.fetchWord = some i) :
    step s = mapNext State.endStep (exec i s.advance) := by
  simp only [step, h, hd]

/-- Settles O17: a halted report and an unknown opcode overwrite the status, and so does every instruction. -/
theorem reportedStatusIsNeverRead : Obligations.ReportedStatusIsNeverRead := by
  intro s r
  show step (s.remap id id fun _ => r) = step s
  cases h : s.halt with
  | some f => rw [step_of_halted h, step_of_halted (s := s.remap id id fun _ => r) h]; rfl
  | none =>
    cases hd : decode s.fetchWord with
    | none => rw [step_of_unknown h hd, step_of_unknown (s := s.remap id id fun _ => r) h hd]; rfl
    | some i =>
      rw [step_of_instr h hd, step_of_instr (s := s.remap id id fun _ => r) h hd]
      exact congrArg (mapNext State.endStep)
        ((exec_remap (fun _ => r) s.advance (fun _ => rfl) (fun _ => rfl)).trans (mapNext_remap_id _))

end Sys2Proof.Machine
end

section
/-! PROOFS. The statements of 10_state.md about who writes and who reads `I`, the stack, the display, memory and VF. -/

namespace Sys2Proof.Machine

/-! ### I and the stack -/

/-- An instruction that does not use `I` does the same whatever it holds, and leaves it (10_state.md R28). -/
theorem exec_index {i : Instr} {s t : State} (hi : usesIndex i = false) (h : exec i s = .next t) (n : BitVec 16) :
    exec i { s with i := n } = .next { t with i := n } := by
  have hr := exec_remap (ι := fun _ => n) (σ := id) id s (fun e => absurd (hi.symm.trans e) (by decide)) (fun _ => rfl)
  rw [h] at hr
  exact hr

/-- An instruction that does not use the stack does the same whatever it holds, and leaves it (10_state.md R30). -/
theorem exec_setStack {i : Instr} {s t : State} (hi : usesStack i = false) (h : exec i s = .next t) (l : List Addr) :
    exec i (s.setStack l) = .next (t.setStack l) := by
  have hr := exec_remap (ι := id) (σ := fun _ => l) id s (fun _ => rfl) (fun e => absurd (hi.symm.trans e) (by decide))
  rw [h] at hr
  exact hr

theorem State.withIndex_same (s : State) (n : BitVec 16) : SameExcept [.index] s { s with i := n } := by
  intro p hp
  cases p with
  | index => exact absurd (List.mem_singleton.mpr rfl) hp
  | _ => rfl

/-- Settles O23: the writers are those of the frame, and the other instructions pass `I` through, except Annn and Fx29,
which overwrite it with a value that does not depend on it. -/
theorem indexIsTouchedOnlyByListed : Obligations.IndexIsTouchedOnlyByListed := by
  refine ⟨fun i s t h hne => mayWrite_index (mayWrite_of_changed h hne), fun i s n hdrw hread t h => ?_⟩
  have passes (hi : usesIndex i = false) : ∃ u, exec i { s with i := n } = .next u ∧ u.pc = t.pc ∧
      u.status = t.status ∧ SameExcept [.index] t u := ⟨_, exec_index hi h n, rfl, rfl, t.withIndex_same n⟩
  cases i with
  | drw x y k => exact absurd rfl (hdrw x y k)
  | addI x => obtain ⟨haddI, _⟩ := hread x; exact absurd rfl haddI
  | ldB x => obtain ⟨_, hldB, _⟩ := hread x; exact absurd rfl hldB
  | storeRegs x => obtain ⟨_, _, hstore, _⟩ := hread x; exact absurd rfl hstore
  | loadRegs x => obtain ⟨_, _, _, hload⟩ := hread x; exact absurd rfl hload
  | ldI nnn => exact ⟨t, h, rfl, rfl, SameExcept.refl _ t⟩
  | ldF x => exact ⟨t, h, rfl, rfl, SameExcept.refl _ t⟩
  | _ => exact passes rfl

/-- Settles O24: the writers are those of the frame, and every other instruction passes the stack through. -/
theorem stackIsTouchedOnlyByCallAndReturn : Obligations.StackIsTouchedOnlyByCallAndReturn := by
  refine ⟨fun i s t h hne => mayWrite_stack (mayWrite_of_changed h hne), fun i s l hret hcall t h => ?_⟩
  have hi : usesStack i = false := by
    cases i with
    | ret => exact absurd rfl hret
    | call nnn => exact absurd rfl (hcall nnn)
    | _ => rfl
  exact ⟨_, exec_setStack hi h l, rfl, rfl, t.setStack_same l⟩

/-! ### Display and memory -/

/-- No instruction changes a font cell (20_memory.md R52). -/
theorem exec_font {i : Instr} {s t : State} (h : exec i s = .next t) {a : Addr} (ha : a.toNat < 80) :
    t.readByte a = s.readByte a := by
  rw [t.readByte_font a ha, s.readByte_font a ha, exec_cfg h]

/-- Settles O25: the display's writers are those of `exec_effect`, memory's those of the frame; a font cell reads as the
configuration's byte, which no instruction changes. -/
theorem displayAndMemoryWriters : Obligations.DisplayAndMemoryWriters := by
  refine ⟨fun i s t h hne => ?_, fun i s t a h hne => ⟨?_, mayWrite_byte (mayWrite_of_changed h hne)⟩⟩
  · rcases (exec_effect h).display with e | ⟨hcls, _⟩ | ⟨x, y, n, hdrw, _⟩
    · exact absurd e hne
    · exact .inl hcls
    · exact .inr ⟨x, y, n, hdrw⟩
  · exact Nat.not_lt.mp fun ha => hne (exec_font h ha)

/-! ### VF -/

/-- The writers of VF (10_state.md R22). -/
theorem mayWrite_vf {i : Instr} {s : State} (h : mayWrite i s (.reg vf)) :
    (∃ x y, i = .addReg x y ∨ i = .subReg x y ∨ i = .subnReg x y ∨ i = .shr x y ∨ i = .shl x y) ∨
    (∃ x y n, i = .drw x y n) ∨
    (∃ x y, (s.cfg.quirks.vfReset = true ∨ x = vf) ∧ (i = .orReg x y ∨ i = .andReg x y ∨ i = .xorReg x y)) ∨
    (∃ nn, i = .ldByte vf nn ∨ i = .addByte vf nn ∨ i = .rnd vf nn) ∨ (∃ y, i = .ldReg vf y) ∨
    i = .ldVxDt vf ∨ i = .ldVxK vf ∨ i = .loadRegs vf := by
  have isF {x : RegIx} {rest : List Part} (hr : .reg vf ∉ rest) (hx : .reg vf ∈ .reg x :: rest) : x = vf :=
    (Part.reg.inj ((List.mem_cons.mp hx).resolve_right hr)).symm
  have isReset {x : RegIx} (hx : .reg vf ∈ [Part.reg x] ∨ (s.cfg.quirks.vfReset = true ∧ Part.reg vf = .reg vf)) :
      s.cfg.quirks.vfReset = true ∨ x = vf := hx.elim (fun hx => .inr (isF (by simp) hx)) (fun hx => .inl hx.1)
  cases i with
  | addReg x y => exact .inl ⟨x, y, by simp⟩
  | subReg x y => exact .inl ⟨x, y, by simp⟩
  | subnReg x y => exact .inl ⟨x, y, by simp⟩
  | shr x y => exact .inl ⟨x, y, by simp⟩
  | shl x y => exact .inl ⟨x, y, by simp⟩
  | drw x y n => exact .inr (.inl ⟨x, y, n, rfl⟩)
  | orReg x y => exact .inr (.inr (.inl ⟨x, y, isReset h, by simp⟩))
  | andReg x y => exact .inr (.inr (.inl ⟨x, y, isReset h, by simp⟩))
  | xorReg x y => exact .inr (.inr (.inl ⟨x, y, isReset h, by simp⟩))
  | ldByte x nn => obtain rfl := isF (by simp) h; simp
  | addByte x nn => obtain rfl := isF (by simp) h; simp
  | rnd x nn =>
    have h : Part.reg vf ∈ [.draws, .reg x] := h
    obtain rfl := isF (by simp) (List.mem_of_ne_of_mem (by simp) h)
    simp
  | ldReg x y => obtain rfl := isF (by simp) h; simp
  | ldVxDt x => obtain rfl := isF (by simp) h; simp
  | ldVxK x => obtain rfl := isF (by simp) h; simp
  | loadRegs x =>
    have h : .reg vf ∈ regsTo x := h.resolve_right (by simp)
    obtain rfl := vf_mem_regsTo h
    simp
  | _ => simp [mayWrite, State.mem_storedParts] at h

/-- Settles O26: the writers of VF are those of the frame. -/
theorem flagRegisterWriters : Obligations.FlagRegisterWriters :=
  fun _ _ _ h hne => mayWrite_vf (mayWrite_of_changed h hne)

end Sys2Proof.Machine
end

section
/-! PROOFS. The statements of 10_state.md about the host's calls: what no sequence of them changes, the way out of a halt,
and the snapshot. -/

namespace Sys2Proof.Machine

/-! ### Load, and runs of calls -/

theorem load_fits {rom : List Byte} (s : State) (h : rom.length ≤ 3584) : load rom s = (.ok, s.loaded rom) :=
  if_neg (Nat.not_lt.mpr h)

theorem load_oversized {rom : List Byte} (s : State) (h : 3584 < rom.length) : load rom s = (.romTooLarge, s) :=
  if_pos h

/-- What every call of a sequence keeps, the sequence keeps. -/
theorem hostRun_keeps {P : State → Prop} {ops : List HostOp} {s t : State}
    (hcall : ∀ op ∈ ops, ∀ s t, P s → hostCall op s = .next t → P t) (hs : P s) (h : hostRun ops s = .next t) : P t := by
  induction ops generalizing s with
  | nil => cases h; exact hs
  | cons op rest ih =>
    rw [hostRun] at h
    cases e : hostCall op s with
    | next u =>
      rw [e] at h
      exact ih (fun o ho => hcall o (List.mem_cons_of_mem op ho)) (hcall op List.mem_cons_self s u hs e) h
    | fault r => rw [e] at h; cases h
    | refused r => rw [e] at h; cases h

/-! ### Configuration, font and keys, over one step and over one call -/

/-- THE FRAME OF A STEP: it changes the latch and what the instruction it fetches may write. -/
theorem step_same {s t : State} (h : step s = .next t) :
    SameOutside (fun p => p = .latch ∨ ∃ i, decode s.fetchWord = some i ∧ mayWrite i s.advance p) s t := by
  intro p hp
  have hend (u : State) : p.Same u u.endStep := u.endStep_same p (by simpa using fun e => hp (.inl e))
  have hadv : p.Same s s.advance := s.advance_same p List.not_mem_nil
  rcases step_cases h with ⟨f, _, rfl⟩ | ⟨_, _, rfl⟩ | ⟨i, u, _, hi, hu, _, rfl⟩
  · exact (s.setStatus_same _ p List.not_mem_nil).trans (hend _)
  · exact (hadv.trans (s.advance.setStatus_same _ p List.not_mem_nil)).trans (hend _)
  · exact (hadv.trans (exec_same hu p fun hw => hp (.inr ⟨i, hi, hw⟩))).trans (hend u)

theorem step_cfg {s t : State} (h : step s = .next t) : t.cfg = s.cfg :=
  step_same h .config (by simp [not_mayWrite_config])

theorem step_keys {s t : State} (h : step s = .next t) : t.keys = s.keys :=
  step_same h .keys (by simp [not_mayWrite_keys])

theorem load_cfg (rom : List Byte) (s : State) : (load rom s).2.cfg = s.cfg := by
  unfold load
  split <;> rfl

theorem load_keys (rom : List Byte) (s : State) : (load rom s).2.keys = s.keys := by
  unfold load
  split <;> rfl

/-- No call of the host changes the configuration (10_state.md R42). -/
theorem hostCall_cfg {op : HostOp} {s t : State} (h : hostCall op s = .next t) : t.cfg = s.cfg := by
  cases op with
  | step => exact step_cfg h
  | load rom => cases h; exact load_cfg rom s
  | _ => cases h; rfl

/-- Only set_keys changes the keys (10_state.md R36). -/
theorem hostCall_keys {op : HostOp} {s t : State} (hop : ∀ k, op ≠ .setKeys k) (h : hostCall op s = .next t) :
    t.keys = s.keys := by
  cases op with
  | step => exact step_keys h
  | load rom => cases h; exact load_keys rom s
  | setKeys k => exact absurd rfl (hop k)
  | _ => cases h; rfl

/-- Settles O22: each call keeps the configuration, and the keys unless it is set_keys, so a sequence of calls does; the
font cells read as the configuration's font. -/
theorem configurationFontAndKeysFixed : Obligations.ConfigurationFontAndKeysFixed := by
  intro ops s t h
  have hcfg : t.cfg = s.cfg :=
    hostRun_keeps (P := fun u => u.cfg = s.cfg) (fun _ _ _ _ hu hc => (hostCall_cfg hc).trans hu) rfl h
  refine ⟨hcfg, fun a ha => by rw [t.readByte_font a ha, hcfg], fun hops => ?_⟩
  refine hostRun_keeps (P := fun u => u.keys = s.keys) (fun op hop _ _ hu hc => ?_) rfl h
  exact (hostCall_keys (fun k e => hops k (e ▸ hop)) hc).trans hu

/-! ### The way out of a halt -/

/-- A step of a halted CORE leaves the halt record (30_encoding.md R86). -/
theorem step_keeps_halt {s t : State} {f : FaultRecord} (hs : s.halt = some f) (h : step s = .next t) :
    t.halt = some f := by
  rw [step_of_halted hs] at h
  cases h
  exact hs

/-- Settles O15: by the kind of call; an oversized load changes nothing, one that fits clears the record. -/
theorem onlyLoadLeavesHalt : Obligations.OnlyLoadLeavesHalt := by
  refine ⟨fun op s t f hs hload h => ?_, fun rom s hr => by rw [load_fits s hr]; rfl⟩
  cases op with
  | step => exact step_keeps_halt hs h
  | load rom =>
    rw [hostCall, load_oversized s (hload rom rfl)] at h
    cases h
    exact hs
  | _ => cases h; exact hs

/-! ### The snapshot -/

theorem addr_lowByte_toNat (a : Addr) : (a.setWidth 8).toNat = a.toNat % 256 := by
  simp

theorem addr_highByte_toNat (a : Addr) : ((a.extractLsb' 8 4).setWidth 8).toNat = a.toNat / 256 := by
  have ha := a.isLt
  simp only [BitVec.toNat_setWidth, BitVec.extractLsb'_toNat, Nat.shiftRight_eq_div_pow]
  omega

/-- Each return address takes two bytes of the stack's storage (10_state.md R29). -/
theorem flatMap_frameBytes_length (l : List Addr) : (l.flatMap frameBytes).length = 2 * l.length := by
  induction l with
  | nil => rfl
  | cons a rest ih =>
    rw [List.flatMap_cons, List.length_append, ih, List.length_cons]
    show 2 + _ = _
    omega

/-- The bytes of entry `k`: the low byte of the address, then the high byte (10_state.md R29, D22). -/
theorem flatMap_frameBytes_entry (l : List Addr) (k : Nat) (h : k < l.length) :
    ((l.flatMap frameBytes).getD (2 * k) 0#8).toNat = l[k].toNat % 256 ∧
      ((l.flatMap frameBytes).getD (2 * k + 1) 0#8).toNat = l[k].toNat / 256 := by
  induction l generalizing k with
  | nil => exact absurd h (Nat.not_lt_zero k)
  | cons a rest ih =>
    cases k with
    | zero => exact ⟨addr_lowByte_toNat a, addr_highByte_toNat a⟩
    | succ k => exact ih k (Nat.lt_of_succ_lt_succ h)

/-- Settles O33: the snapshot's fields are the state's, and its storage bytes are those of `flatMap_frameBytes_entry`. -/
theorem snapshotShowsState : Obligations.SnapshotShowsState := by
  refine fun s => ⟨rfl, rfl, rfl, rfl, rfl, rfl, rfl, rfl, rfl, rfl, ?_, flatMap_frameBytes_entry s.stack.reverse⟩
  exact (flatMap_frameBytes_length s.stack.reverse).trans (by rw [List.length_reverse])

end Sys2Proof.Machine
end

section
/-! PROOFS. The statements of 20_memory.md: the fetched word is two bytes of memory, big-endian, and a store by Fx55 is seen
by the fetch that follows. -/

namespace Sys2Proof.Machine

/-! ### The fetched word -/

/-- The address of a word's second byte, modulo 4096 (20_memory.md R51). -/
theorem addr_add_one (a : Addr) : a + 1#12 = BitVec.ofNat 12 ((a.toNat + 1) % 4096) :=
  BitVec.eq_of_toNat_eq (by simp)

/-- Settles O7: the word at `PC` is put together of the bytes at `PC` and at `PC + 1`. -/
theorem fetchIsBigEndian : Obligations.FetchIsBigEndian := by
  intro s
  rw [← addr_add_one]
  exact ⟨ofBytes_toNat _ _, highByte_ofBytes _ _, lowByte_ofBytes _ _⟩

/-! ### The state after a store by Fx55 -/

/-- What Fx55 leaves when it does not fault (43_index_memory.md R132). -/
def State.storedRegs (s : State) (x : RegIx) : State := ((s.writeBytes s.iAddr (s.registersTo x)).stepIndex x).complete

theorem exec_storeRegs_of_ram {s : State} {x : RegIx} (h : ∀ k, k ≤ x.toNat → 80 ≤ (s.indexed k).toNat) :
    exec (.storeRegs x) s = .next (s.storedRegs x) := by
  refine exec_storeRegs_store x (Bool.eq_false_iff.mpr fun hf => ?_)
  obtain ⟨_, k, hk, hfont⟩ := (s.storeFaults_iff _).mp hf
  exact absurd hfont (Nat.not_lt.mpr (h k (Nat.le_of_lt_succ hk)))

theorem State.storedRegs_pc (s : State) (x : RegIx) : (s.storedRegs x).pc = s.pc := by
  obtain ⟨m, hm⟩ := s.writeBytes_frame s.iAddr (s.registersTo x)
  show ((s.writeBytes s.iAddr (s.registersTo x)).stepIndex x).pc = s.pc
  rw [State.stepIndex_pc, hm]
  rfl

/-- Register `k` is read back at `I + k`, a font cell keeping its byte (43_index_memory.md R132, 20_memory.md R52). -/
theorem State.storedRegs_readByte (s : State) {x : RegIx} {k : Nat} (hk : k ≤ x.toNat) :
    (s.storedRegs x).readByte (s.indexed k) =
      if (s.indexed k).toNat < 80 then s.readByte (s.indexed k) else s.getV (BitVec.ofNat 4 k) := by
  have hx : x.toNat < 16 := x.isLt
  have hlen : (s.registersTo x).length = x.toNat + 1 := s.registersTo_length x
  have hget : (s.registersTo x)[k]'(by omega) = s.getV (BitVec.ofNat 4 k) := by simp [State.registersTo]
  have hindex : (s.storedRegs x).readByte (s.indexed k) =
      (s.writeBytes s.iAddr (s.registersTo x)).readByte (s.indexed k) :=
    State.stepIndex_same _ x (.byte (s.indexed k)) (by simp)
  rw [hindex, ← hget]
  exact s.readByte_writeBytes_same s.iAddr _ (by omega) k (by omega)

/-! ### Seen by the next fetch -/

/-- Without a wrap past 0xFFF the addresses of a store rise from `I`. -/
theorem State.indexed_toNat (s : State) {k : Nat} (h : s.iAddr.toNat + k < 4096) :
    (s.indexed k).toNat = s.iAddr.toNat + k := by
  simp only [State.indexed, BitVec.toNat_add, BitVec.toNat_ofNat]
  omega

/-- Settles O55: no address of the store is a font cell, so it does not fault and leaves V0 and V1 at `PC` and `PC + 1`, the
two bytes of the next fetch. -/
theorem storeIsSeenByNextFetch : Obligations.StoreIsSeenByNextFetch := by
  intro s x hx hi hfont hwrap
  have hram : ∀ k, k ≤ x.toNat → 80 ≤ (s.indexed k).toNat := fun k hk => by
    rw [← hi] at hfont hwrap
    rw [s.indexed_toNat (by omega)]
    omega
  have hread : ∀ k, k ≤ x.toNat → (s.storedRegs x).readByte (s.indexed k) = s.getV (BitVec.ofNat 4 k) :=
    fun k hk => (s.storedRegs_readByte hk).trans (if_neg (Nat.not_lt.mpr (hram k hk)))
  have hV0 : (s.storedRegs x).readByte s.pc = s.getV 0#4 := by simpa [State.indexed, hi] using hread 0 (Nat.zero_le _)
  have hV1 : (s.storedRegs x).readByte (s.pc + 1#12) = s.getV 1#4 := by simpa [State.indexed, hi] using hread 1 hx
  refine ⟨s.storedRegs x, exec_storeRegs_of_ram hram, ?_⟩
  rw [State.fetchWord, State.storedRegs_pc, State.readWord, hV0, hV1, ofBytes_toNat]

end Sys2Proof.Machine
end

section
/-! PROOFS. The decoder against the opcode map (30_encoding.md R74, R75): it gives an instruction exactly when the word meets
the instruction's row and holds its fields; and what follows for canonical words, other words and unknown words. -/

namespace Sys2Proof

/-! ### A word from its fields, and its bits under the masks of the map (30_encoding.md R71, R74) -/

theorem wordA_of_fields (w : Word) : wordA (Word.family w) (Word.nnn w) = w := by
  apply BitVec.eq_of_getLsbD_eq
  intro i hi
  simp only [getLsbD_wordA, Word.family, Word.nnn, BitVec.getLsbD_extractLsb']
  interval_cases i <;> simp

theorem wordXB_of_fields (w : Word) : wordXB (Word.family w) (Word.x w) (Word.nn w) = w := by
  apply BitVec.eq_of_getLsbD_eq
  intro i hi
  simp only [getLsbD_wordXB, Word.family, Word.x, Word.nn, BitVec.getLsbD_extractLsb']
  interval_cases i <;> simp

theorem wordXYN_of_fields (w : Word) : wordXYN (Word.family w) (Word.x w) (Word.y w) (Word.n w) = w := by
  apply BitVec.eq_of_getLsbD_eq
  intro i hi
  simp only [getLsbD_wordXYN, Word.family, Word.x, Word.y, Word.n, BitVec.getLsbD_extractLsb']
  interval_cases i <;> simp

/-- Mask F000 keeps the family. -/
theorem and_familyMask (w : Word) : w &&& 0xF000#16 = wordA (Word.family w) 0 := by
  have h := Laws.EncodingShape.wordA_fixed (Word.family w) (Word.nnn w)
  rwa [wordA_of_fields] at h

/-- Mask F0FF keeps the family and the low byte. -/
theorem and_byteMask (w : Word) : w &&& 0xF0FF#16 = wordXB (Word.family w) 0 (Word.nn w) := by
  have h := Laws.EncodingShape.wordXF_fixed (Word.family w) (Word.x w) (Word.nn w)
  rwa [wordXB_of_fields] at h

/-- Mask F00F keeps the family and the low nibble. -/
theorem and_nibbleMask (w : Word) : w &&& 0xF00F#16 = wordXYN (Word.family w) 0 0 (Word.n w) := by
  have h := Laws.EncodingShape.wordXYN_fixed (Word.family w) (Word.x w) (Word.y w) (Word.n w)
  rwa [wordXYN_of_fields] at h

/-! ### What a word that meets a row holds -/

theorem OpcodeRow.selects_iff {row : OpcodeRow} {w : Word} : row.selects w = true ↔ w &&& row.mask = row.pattern :=
  beq_iff_eq

/-- Every mask of the map covers the family nibble. -/
theorem Instr.row_mask (i : Instr) : i.row.mask = 0xF000#16 ∨ i.row.mask = 0xF00F#16 ∨ i.row.mask = 0xF0FF#16 := by
  cases i <;> simp [Instr.row]

section
variable {i : Instr} {w : Word} (h : i.row.selects w = true)
include h

theorem family_of_selects : Word.family w = Word.family i.row.pattern := by
  rw [← OpcodeRow.selects_iff.mp h]
  rcases i.row_mask with hm | hm | hm <;> rw [hm]
  · rw [and_familyMask, family_wordA]
  · rw [and_nibbleMask, family_wordXYN]
  · rw [and_byteMask, family_wordXB]

theorem n_of_selects (hm : i.row.mask = 0xF00F#16) : Word.n w = Word.n i.row.pattern := by
  rw [← OpcodeRow.selects_iff.mp h, hm, and_nibbleMask, n_wordXYN]

theorem nn_of_selects (hm : i.row.mask = 0xF0FF#16) : Word.nn w = Word.nn i.row.pattern := by
  rw [← OpcodeRow.selects_iff.mp h, hm, and_byteMask, nn_wordXB]

end

/-! ### A word that meets a row decodes to that row's instruction, with the word's fields -/

/-- The instruction of the same row whose operands are the fields of `w` (30_encoding.md R71, R74). -/
def Instr.readFrom (w : Word) : Instr → Instr
  | .cls => .cls
  | .ret => .ret
  | .jp _ => .jp (Word.nnn w)
  | .call _ => .call (Word.nnn w)
  | .seByte _ _ => .seByte (Word.x w) (Word.nn w)
  | .sneByte _ _ => .sneByte (Word.x w) (Word.nn w)
  | .seReg _ _ => .seReg (Word.x w) (Word.y w)
  | .sneReg _ _ => .sneReg (Word.x w) (Word.y w)
  | .ldByte _ _ => .ldByte (Word.x w) (Word.nn w)
  | .addByte _ _ => .addByte (Word.x w) (Word.nn w)
  | .ldReg _ _ => .ldReg (Word.x w) (Word.y w)
  | .orReg _ _ => .orReg (Word.x w) (Word.y w)
  | .andReg _ _ => .andReg (Word.x w) (Word.y w)
  | .xorReg _ _ => .xorReg (Word.x w) (Word.y w)
  | .addReg _ _ => .addReg (Word.x w) (Word.y w)
  | .subReg _ _ => .subReg (Word.x w) (Word.y w)
  | .shr _ _ => .shr (Word.x w) (Word.y w)
  | .subnReg _ _ => .subnReg (Word.x w) (Word.y w)
  | .shl _ _ => .shl (Word.x w) (Word.y w)
  | .ldI _ => .ldI (Word.nnn w)
  | .jpV0 _ => .jpV0 (Word.nnn w)
  | .rnd _ _ => .rnd (Word.x w) (Word.nn w)
  | .drw _ _ _ => .drw (Word.x w) (Word.y w) (Word.n w)
  | .skp _ => .skp (Word.x w)
  | .sknp _ => .sknp (Word.x w)
  | .ldVxDt _ => .ldVxDt (Word.x w)
  | .ldDtVx _ => .ldDtVx (Word.x w)
  | .ldStVx _ => .ldStVx (Word.x w)
  | .ldVxK _ => .ldVxK (Word.x w)
  | .addI _ => .addI (Word.x w)
  | .ldF _ => .ldF (Word.x w)
  | .ldB _ => .ldB (Word.x w)
  | .storeRegs _ => .storeRegs (Word.x w)
  | .loadRegs _ => .loadRegs (Word.x w)

theorem Instr.readFrom_row (w : Word) (i : Instr) : (i.readFrom w).row = i.row := by
  cases i <;> rfl

/-- The decoder goes by the family, and in families 0, 8, E and F by the low byte or nibble; a row fixes just these. -/
theorem decode_of_selects {i : Instr} {w : Word} (h : i.row.selects w = true) : decode w = some (i.readFrom w) := by
  unfold decode
  rw [family_of_selects h]
  cases i with
  | cls | ret =>
    simp only [Instr.row, Word.family]
    rw [decodeFamily0, nn_of_selects h rfl]
    simp [Instr.row, Word.nn, Instr.readFrom]
  | ldReg | orReg | andReg | xorReg | addReg | subReg | shr | subnReg | shl =>
    simp only [Instr.row, Word.family]
    rw [decodeFamily8, n_of_selects h rfl]
    simp [Instr.row, Word.n, Instr.readFrom]
  | skp | sknp =>
    simp only [Instr.row, Word.family]
    rw [decodeFamilyE, nn_of_selects h rfl]
    simp [Instr.row, Word.nn, Instr.readFrom]
  | ldVxDt | ldDtVx | ldStVx | ldVxK | addI | ldF | ldB | storeRegs | loadRegs =>
    simp only [Instr.row, Word.family]
    rw [decodeFamilyF, nn_of_selects h rfl]
    simp [Instr.row, Word.nn, Instr.readFrom]
  | _ => simp [Instr.row, Word.family, Instr.readFrom]

/-! ### The courses of the decoder -/

/-- The courses of the decoder (30_encoding.md R75): four families look further, the others give their one row. -/
inductive DecodeCourse (w : Word) : Prop where
  | family0 (hf : Word.family w = 0x0#4) (hd : decode w = decodeFamily0 w)
  | family8 (hf : Word.family w = 0x8#4) (hd : decode w = decodeFamily8 w)
  | familyE (hf : Word.family w = 0xE#4) (hd : decode w = decodeFamilyE w)
  | familyF (hf : Word.family w = 0xF#4) (hd : decode w = decodeFamilyF w)
  | oneRow (i : Instr) (hf : Word.family w ∉ [0x0#4, 0x8#4, 0xE#4, 0xF#4]) (hd : decode w = some i)
      (hmask : i.row.mask = 0xF000#16) (hpattern : i.row.pattern = wordA (Word.family w) 0)

theorem decode_course (w : Word) : DecodeCourse w := by
  have hd : decode w = _ := decode.eq_def w
  split at hd
  case h_1 hf => exact .family0 hf hd
  case h_9 hf => exact .family8 hf hd
  case h_15 hf => exact .familyE hf hd
  case h_16 => exact .familyF (nibble_eq_F (by intro k; fin_cases k <;> assumption)) hd
  all_goals
    next hf => exact .oneRow _ (by rw [hf]; decide) hd rfl (by rw [hf]; rfl)

theorem selects_of_decodeFamily0 {w : Word} {i : Instr} (hf : Word.family w = 0x0#4) (h : decodeFamily0 w = some i) :
    i.row.selects w = true := by
  unfold decodeFamily0 at h
  split at h <;> cases h
  all_goals next hnn => exact OpcodeRow.selects_iff.mpr ((and_byteMask w).trans (by rw [hf, hnn]; rfl))

theorem selects_of_decodeFamily8 {w : Word} {i : Instr} (hf : Word.family w = 0x8#4) (h : decodeFamily8 w = some i) :
    i.row.selects w = true := by
  unfold decodeFamily8 at h
  split at h <;> cases h
  all_goals next hn => exact OpcodeRow.selects_iff.mpr ((and_nibbleMask w).trans (by rw [hf, hn]; rfl))

theorem selects_of_decodeFamilyE {w : Word} {i : Instr} (hf : Word.family w = 0xE#4) (h : decodeFamilyE w = some i) :
    i.row.selects w = true := by
  unfold decodeFamilyE at h
  split at h <;> cases h
  all_goals next hnn => exact OpcodeRow.selects_iff.mpr ((and_byteMask w).trans (by rw [hf, hnn]; rfl))

theorem selects_of_decodeFamilyF {w : Word} {i : Instr} (hf : Word.family w = 0xF#4) (h : decodeFamilyF w = some i) :
    i.row.selects w = true := by
  unfold decodeFamilyF at h
  split at h <;> cases h
  all_goals next hnn => exact OpcodeRow.selects_iff.mpr ((and_byteMask w).trans (by rw [hf, hnn]; rfl))

theorem selects_of_decode {w : Word} {i : Instr} (h : decode w = some i) : i.row.selects w = true := by
  rcases decode_course w with ⟨hf, hd⟩ | ⟨hf, hd⟩ | ⟨hf, hd⟩ | ⟨hf, hd⟩ | ⟨j, _, hd, hmask, hpattern⟩
  · exact selects_of_decodeFamily0 hf (hd.symm.trans h)
  · exact selects_of_decodeFamily8 hf (hd.symm.trans h)
  · exact selects_of_decodeFamilyE hf (hd.symm.trans h)
  · exact selects_of_decodeFamilyF hf (hd.symm.trans h)
  · obtain rfl : j = i := Option.some.inj (hd.symm.trans h)
    rw [OpcodeRow.selects_iff, hmask, hpattern, and_familyMask]

/-- THE DECODER AGAINST THE MAP: a word decodes to an instruction exactly when it meets the instruction's row and holds its
operands. -/
theorem decode_eq_some_iff {w : Word} {i : Instr} : decode w = some i ↔ i.row.selects w = true ∧ i.readFrom w = i := by
  refine ⟨fun h => ⟨selects_of_decode h, ?_⟩, fun ⟨hsel, hread⟩ => hread ▸ decode_of_selects hsel⟩
  exact Option.some.inj ((decode_of_selects (selects_of_decode h)).symm.trans h)

/-! ### Canonical words (30_encoding.md R77) -/

/-- A canonical word meets its instruction's row: the lemmas of Laws/PerInstr.lean for every instruction. -/
theorem encode_selects (i : Instr) : i.row.selects (encode i) = true :=
  open Laws in
  match i with
  | .cls => EncodingShape.cls.2
  | .ret => EncodingShape.ret.2
  | .jp nnn => (EncodingShape.jp nnn).2
  | .call nnn => (EncodingShape.call nnn).2
  | .seByte x nn => (EncodingShape.seByte x nn).2
  | .sneByte x nn => (EncodingShape.sneByte x nn).2
  | .seReg x y => (EncodingShape.seReg x y).2
  | .sneReg x y => (EncodingShape.sneReg x y).2
  | .ldByte x nn => (EncodingShape.ldByte x nn).2
  | .addByte x nn => (EncodingShape.addByte x nn).2
  | .ldReg x y => (EncodingShape.ldReg x y).2
  | .orReg x y => (EncodingShape.orReg x y).2
  | .andReg x y => (EncodingShape.andReg x y).2
  | .xorReg x y => (EncodingShape.xorReg x y).2
  | .addReg x y => (EncodingShape.addReg x y).2
  | .subReg x y => (EncodingShape.subReg x y).2
  | .shr x y => (EncodingShape.shr x y).2
  | .subnReg x y => (EncodingShape.subnReg x y).2
  | .shl x y => (EncodingShape.shl x y).2
  | .ldI nnn => (EncodingShape.ldI nnn).2
  | .jpV0 nnn => (EncodingShape.jpV0 nnn).2
  | .rnd x nn => (EncodingShape.rnd x nn).2
  | .drw x y n => (EncodingShape.drw x y n).2
  | .skp x => (EncodingShape.skp x).2
  | .sknp x => (EncodingShape.sknp x).2
  | .ldVxDt x => (EncodingShape.ldVxDt x).2
  | .ldDtVx x => (EncodingShape.ldDtVx x).2
  | .ldStVx x => (EncodingShape.ldStVx x).2
  | .ldVxK x => (EncodingShape.ldVxK x).2
  | .addI x => (EncodingShape.addI x).2
  | .ldF x => (EncodingShape.ldF x).2
  | .ldB x => (EncodingShape.ldB x).2
  | .storeRegs x => (EncodingShape.storeRegs x).2
  | .loadRegs x => (EncodingShape.loadRegs x).2

/-- The fields of a canonical word are the instruction's operands. -/
theorem Instr.readFrom_encode (i : Instr) : i.readFrom (encode i) = i := by
  cases i <;> simp [Instr.readFrom, encode]

theorem decode_encode (i : Instr) : decode (encode i) = some i :=
  decode_eq_some_iff.mpr ⟨encode_selects i, i.readFrom_encode⟩

/-- Settles O1: a canonical word meets its instruction's row, and its fields are the instruction's operands. -/
theorem decodeOfEncodeIsIdentity : Obligations.DecodeOfEncodeIsIdentity :=
  fun i _ => decode_encode i

/-- Settles O5: each of the eight words is the canonical word of its instruction. -/
theorem sampleWordsDecode : Obligations.SampleWordsDecode :=
  ⟨decode_encode .cls, decode_encode (.jp 0xABC), decode_encode (.addByte 0xA 0x02), decode_encode (.shl 0x1 0x2),
    decode_encode (.ldI 0x20A), decode_encode (.drw 0x1 0x2 0x5), decode_encode (.sknp 0x1),
    decode_encode (.loadRegs 0x2)⟩

/-! ### Rows, and the nibbles outside their masks -/

/-- The rows of the map are rows of instructions, one of each constructor. -/
theorem opcodeMap_eq_map_row : ∃ l : List Instr, opcodeMap = l.map Instr.row :=
  ⟨[.cls, .ret, .jp 0, .call 0, .seByte 0 0, .sneByte 0 0, .seReg 0 0, .sneReg 0 0, .ldByte 0 0, .addByte 0 0, .ldReg 0 0,
    .orReg 0 0, .andReg 0 0, .xorReg 0 0, .addReg 0 0, .subReg 0 0, .shr 0 0, .subnReg 0 0, .shl 0 0, .ldI 0, .jpV0 0,
    .rnd 0 0, .drw 0 0 0, .skp 0, .sknp 0, .ldVxDt 0, .ldDtVx 0, .ldStVx 0, .ldVxK 0, .addI 0, .ldF 0, .ldB 0,
    .storeRegs 0, .loadRegs 0], rfl⟩

theorem selects_iff_decode {row : OpcodeRow} (hrow : row ∈ opcodeMap) (w : Word) :
    row.selects w = true ↔ ∃ i, decode w = some i ∧ i.row = row := by
  obtain ⟨l, hl⟩ := opcodeMap_eq_map_row
  obtain ⟨i, _, rfl⟩ := List.mem_map.mp (hl ▸ hrow)
  refine ⟨fun h => ⟨_, decode_of_selects h, i.readFrom_row w⟩, fun ⟨j, hj, hji⟩ => ?_⟩
  rw [← hji]
  exact selects_of_decode hj

/-- Settles O2: a row the word meets is the row of the one instruction it decodes to, so there is no second one. -/
theorem decoderSelectsOpcodeRow : Obligations.DecoderSelectsOpcodeRow := by
  refine ⟨fun w row hrow => selects_iff_decode hrow w, fun w row row' hrow hrow' h h' => ?_⟩
  obtain ⟨i, hi, rfl⟩ := (selects_iff_decode hrow w).mp h
  obtain ⟨j, hj, rfl⟩ := (selects_iff_decode hrow' w).mp h'
  rw [Option.some.inj (hi.symm.trans hj)]

/-! The nibbles R76 names: `n` in families 5 and 9, `x` in family 0. -/

theorem decode_wordXYN_family5 (x y n : Nibble) : decode (wordXYN 0x5 x y n) = some (.seReg x y) :=
  decode_eq_some_iff.mpr ⟨beq_iff_eq.mpr (Laws.EncodingShape.wordXYN_family_fixed _ x y n), by simp [Instr.readFrom]⟩

theorem decode_wordXYN_family9 (x y n : Nibble) : decode (wordXYN 0x9 x y n) = some (.sneReg x y) :=
  decode_eq_some_iff.mpr ⟨beq_iff_eq.mpr (Laws.EncodingShape.wordXYN_family_fixed _ x y n), by simp [Instr.readFrom]⟩

theorem decode_wordXB_cls (x : Nibble) : decode (wordXB 0x0 x 0xE0) = some .cls :=
  decode_of_selects (i := .cls) (beq_iff_eq.mpr (Laws.EncodingShape.wordXF_fixed _ x _))

theorem decode_wordXB_ret (x : Nibble) : decode (wordXB 0x0 x 0xEE) = some .ret :=
  decode_of_selects (i := .ret) (beq_iff_eq.mpr (Laws.EncodingShape.wordXF_fixed _ x _))

/-- Settles O4: these nibbles lie outside the rows' masks and outside the fields their instructions hold. -/
theorem nonCanonicalWordsDecode : Obligations.NonCanonicalWordsDecode :=
  ⟨fun x => ⟨decode_wordXB_cls x, decode_wordXB_ret x⟩,
    fun x y n => ⟨decode_wordXYN_family5 x y n, decode_wordXYN_family9 x y n⟩⟩

/-! ### Unknown words (30_encoding.md R78) -/

theorem decodeFamily0_eq_none {w : Word} : decodeFamily0 w = none ↔ Word.nn w ≠ 0xE0#8 ∧ Word.nn w ≠ 0xEE#8 := by
  unfold decodeFamily0
  split <;> simp_all

theorem decodeFamilyE_eq_none {w : Word} : decodeFamilyE w = none ↔ Word.nn w ≠ 0x9E#8 ∧ Word.nn w ≠ 0xA1#8 := by
  unfold decodeFamilyE
  split <;> simp_all

theorem decodeFamilyF_eq_none {w : Word} : decodeFamilyF w = none ↔
    Word.nn w ∉ [0x07#8, 0x0A#8, 0x15#8, 0x18#8, 0x1E#8, 0x29#8, 0x33#8, 0x55#8, 0x65#8] := by
  unfold decodeFamilyF
  split <;> simp_all

/-- The nibbles that no row of family 8 has. -/
theorem nibble_unused_iff (n : Nibble) :
    n ∉ [0x0#4, 0x1#4, 0x2#4, 0x3#4, 0x4#4, 0x5#4, 0x6#4, 0x7#4, 0xE#4] ↔
      n ∈ [0x8#4, 0x9#4, 0xA#4, 0xB#4, 0xC#4, 0xD#4, 0xF#4] := by
  revert n
  decide

theorem decodeFamily8_eq_none {w : Word} :
    decodeFamily8 w = none ↔ Word.n w ∈ [0x8#4, 0x9#4, 0xA#4, 0xB#4, 0xC#4, 0xD#4, 0xF#4] := by
  rw [← nibble_unused_iff]
  unfold decodeFamily8
  split <;> simp_all

/-- Settles O3: only the families 0, 8, E and F have unknown words, each those its own decoder rejects. -/
theorem unknownWordsAreThoseListed : Obligations.UnknownWordsAreThoseListed := by
  intro w
  rcases decode_course w with ⟨hf, hd⟩ | ⟨hf, hd⟩ | ⟨hf, hd⟩ | ⟨hf, hd⟩ | ⟨i, hf, hd, _, _⟩
  · simp [hd, hf, decodeFamily0_eq_none]
  · simp [hd, hf, decodeFamily8_eq_none]
  · simp [hd, hf, decodeFamilyE_eq_none]
  · simp [hd, hf, decodeFamilyF_eq_none]
  · simp only [List.mem_cons, List.not_mem_nil, or_false, not_or] at hf
    simp [hd, hf]

end Sys2Proof
end

section
/-! PROOFS. The statements of 30_encoding.md about the step: what the fetch and the end of a step add to the instruction
(R83, R85), a blocked step (R84) and a halted one (R86). -/

namespace Sys2Proof.Machine

/-- Settles O6: the course of a step for an instruction (`step_of_instr`), and the frames of the fetch's advance and of the end
of a step. -/
theorem stepRunsDecodedInstruction : Obligations.StepRunsDecodedInstruction :=
  fun s _ hhalt hd _ => ⟨step_of_instr hhalt hd, rfl, rfl, s.advance_same, fun t => ⟨rfl, rfl, rfl, t.endStep_same⟩⟩

/-- Reporting a status and ending the step changes nothing but the latch. -/
theorem State.setStatus_endStep_same (s : State) (r : Status) : SameExcept [.latch] s (s.setStatus r).endStep :=
  ((s.setStatus_same r).mono (List.nil_subset _)).trans (State.endStep_same _)

/-- Settles O9: a halted step reports the fault record and ends. -/
theorem haltedStepIsInert : Obligations.HaltedStepIsInert :=
  fun s _ hhalt => ⟨_, step_of_halted hhalt, rfl, rfl, rfl, s.setStatus_endStep_same _⟩

/-- Blocking takes back the advance of the fetch and leaves the status alone (30_encoding.md R84). -/
theorem State.advance_block (s : State) (r : Status) : s.advance.block r = s.setStatus r := by
  unfold State.block State.instrAddr
  rw [State.advance_instrAddr]
  rfl

theorem step_of_blocked {s : State} {i : Instr} {r : Status} (hhalt : s.halt = none) (hd : decode s.fetchWord = some i)
    (hexec : exec i s.advance = .next (s.advance.block r)) : step s = .next (s.setStatus r).endStep := by
  rw [step_of_instr hhalt hd, hexec, State.advance_block]
  rfl

theorem State.endStep_of_latch_none {s : State} (h : s.latch = none) : s.endStep = s := by
  show { s with latch := none } = s
  rw [← h]

/-- Settles O14: a blocked step does no more than report its wait and clear the latch, which is clear already where Fx0A
waits. -/
theorem blockedStepChangesNothing : Obligations.BlockedStepChangesNothing := by
  refine fun s hhalt => ⟨fun ⟨x, hd⟩ hlatch => ?_, fun ⟨x, y, n, hd⟩ hwait hseen hfaker => ?_⟩
  · have hstep := step_of_blocked hhalt hd (exec_ldVxK_none (s := s.advance) x hlatch)
    rw [State.endStep_of_latch_none (s := s.setStatus .awaitingKey) hlatch] at hstep
    exact ⟨_, hstep, rfl, rfl, rfl, s.setStatus_same _⟩
  · have hgated : s.advance.drawGated = true := by
      show (s.cfg.quirks.displayWait && !s.vblankSeen) = true
      rw [hwait, hseen]
      rfl
    exact ⟨_, step_of_blocked hhalt hd (exec_drw_blocked x y n hgated hfaker), rfl, rfl, rfl, rfl,
      s.setStatus_endStep_same _⟩

end Sys2Proof.Machine
end

section
/-! PROOFS. The statements of 40_display.md: clearing the display, the pixels and the flag of a draw, its gate, and a sprite
drawn twice. -/

namespace Sys2Proof.Machine

/-! ### 00E0 (40_display.md R90) -/

/-- Settles O34: the `x` nibble is not examined, and a blank display is set; the rest is the frame of 00E0. -/
theorem clsClearsDisplay : Obligations.ClsClearsDisplay :=
  ⟨decode_wordXB_cls, fun _ => ⟨_, rfl, Display.pix_blank _ _, Display.blank_fits _ _, rfl, rfl, exec_same (i := .cls) rfl⟩⟩

/-! ### One pixel under several toggles (40_display.md R96) -/

/-- Toggling a pixel `hits` times turns it clear at least once: the first toggle does when the pixel is set, the second
when it is not. -/
def collides (set : Bool) (hits : Nat) : Prop := (set = true ∧ 1 ≤ hits) ∨ 2 ≤ hits

/-- The first toggle clears a set pixel, or leaves the later ones a flipped pixel. -/
theorem collides_succ (set : Bool) (hits : Nat) : collides set (hits + 1) ↔ set = true ∨ collides (!set) hits := by
  cases set with
  | true => simp [collides]
  | false => simp [collides]; omega

/-- A clear pixel that was hit collides when it is hit as often again: set by then, or hit twice. -/
theorem collides_again {hits : Nat} (h : 1 ≤ hits) : collides (false ^^ decide (hits % 2 = 1)) hits := by
  rcases Nat.eq_or_lt_of_le h with rfl | h2
  · exact .inl ⟨rfl, Nat.le_refl 1⟩
  · exact .inr h2

/-- One hit more changes the parity. -/
theorem decide_odd_succ (hits : Nat) : decide ((hits + 1) % 2 = 1) = !decide (hits % 2 = 1) := by
  rw [← decide_not, decide_eq_decide]
  omega

/-! ### A list of landings: parity of the hits and the collision flag -/

/-- How many of the landings are on pixel `(c, r)`. -/
def hitsOn (l : List (Option (Nat × Nat))) (c r : Nat) : Nat := l.countP (· = some (c, r))

theorem hitsOn_none (l : List (Option (Nat × Nat))) (c r : Nat) : hitsOn (none :: l) c r = hitsOn l c r := by
  simp [hitsOn]

theorem hitsOn_some (l : List (Option (Nat × Nat))) (c₀ r₀ c r : Nat) :
    hitsOn (some (c₀, r₀) :: l) c r = if c₀ = c ∧ r₀ = r then hitsOn l c r + 1 else hitsOn l c r := by
  by_cases e : c₀ = c ∧ r₀ = r <;> simp [hitsOn, e]

theorem State.spriteHits_eq_hitsOn (s : State) (x y : RegIx) (n : Nibble) (c r : Nat) :
    s.spriteHits x y n c r = hitsOn ((spriteBits n).map (s.landing x y)) c r :=
  s.spriteHits_eq x y n c r

/-- The landings turn some pixel of the `w` by `h` grid clear. -/
def collidesOnGrid (w h : Nat) (d : List (List Bool)) (l : List (Option (Nat × Nat))) : Prop :=
  ∃ c r, c < w ∧ r < h ∧ collides (Display.pix d c r) (hitsOn l c r)

section
variable {w h : Nat}

/-- Each landing on a pixel of the grid flips it. -/
theorem foldl_landOn_pix (l : List (Option (Nat × Nat))) {p : List (List Bool) × Bool} (hd : Display.Fits p.1 w h)
    {c r : Nat} (hc : c < w) (hr : r < h) :
    Display.pix (l.foldl landOn p).1 c r = (Display.pix p.1 c r ^^ decide (hitsOn l c r % 2 = 1)) := by
  induction l generalizing p with
  | nil => simp [hitsOn]
  | cons target l ih =>
    rw [List.foldl_cons]
    cases target with
    | none => rw [hitsOn_none]; exact ih hd
    | some q =>
      obtain ⟨c₀, r₀⟩ := q
      rw [landOn, ih (toggle_fits hd c₀ r₀), toggle_pix hd c₀ r₀ hc hr, hitsOn_some]
      by_cases e : c₀ = c ∧ r₀ = r
      · simp [e, decide_odd_succ]
      · simp [e]

/-- A set pixel lies on the grid: outside it every pixel reads clear. -/
theorem pix_eq_true_iff {d : List (List Bool)} (hd : Display.Fits d w h) {c₀ r₀ : Nat} :
    Display.pix d c₀ r₀ = true ↔ ∃ c r, c < w ∧ r < h ∧ (c₀ = c ∧ r₀ = r) ∧ Display.pix d c r = true := by
  constructor
  · intro hset
    have hin : c₀ < w ∧ r₀ < h := by
      by_contra hout
      simp [Display.pix_outside hd hout] at hset
    exact ⟨c₀, r₀, hin.1, hin.2, ⟨rfl, rfl⟩, hset⟩
  · rintro ⟨c, r, _, _, ⟨rfl, rfl⟩, hset⟩
    exact hset

/-- At one pixel: the first landing turns it clear, or a later one does after the toggle. -/
theorem collides_landing (l : List (Option (Nat × Nat))) {p : List (List Bool) × Bool} (hd : Display.Fits p.1 w h)
    (c₀ r₀ : Nat) {c r : Nat} (hc : c < w) (hr : r < h) :
    collides (Display.pix p.1 c r) (hitsOn (some (c₀, r₀) :: l) c r) ↔
      ((c₀ = c ∧ r₀ = r) ∧ Display.pix p.1 c r = true) ∨
        collides (Display.pix (toggle p c₀ r₀).1 c r) (hitsOn l c r) := by
  rw [toggle_pix hd c₀ r₀ hc hr, hitsOn_some]
  by_cases e : c₀ = c ∧ r₀ = r
  · simp [e, collides_succ]
  · simp [e]

theorem collidesOnGrid_cons (l : List (Option (Nat × Nat))) {p : List (List Bool) × Bool} (hd : Display.Fits p.1 w h)
    (c₀ r₀ : Nat) :
    collidesOnGrid w h p.1 (some (c₀, r₀) :: l) ↔
      Display.pix p.1 c₀ r₀ = true ∨ collidesOnGrid w h (toggle p c₀ r₀).1 l := by
  rw [pix_eq_true_iff hd]
  simp only [collidesOnGrid, ← exists_or, ← and_or_left]
  exact exists₂_congr fun c r => and_congr_right fun hc => and_congr_right fun hr => collides_landing l hd c₀ r₀ hc hr

/-- The flag ends set when it was set, or when the landings turn some pixel of the grid clear. -/
theorem foldl_landOn_flag (l : List (Option (Nat × Nat))) {p : List (List Bool) × Bool} (hd : Display.Fits p.1 w h) :
    (l.foldl landOn p).2 = true ↔ p.2 = true ∨ collidesOnGrid w h p.1 l := by
  induction l generalizing p with
  | nil => simp [collidesOnGrid, collides, hitsOn]
  | cons target l ih =>
    rw [List.foldl_cons]
    cases target with
    | none => simpa only [landOn, collidesOnGrid, hitsOn_none] using ih hd
    | some q =>
      obtain ⟨c₀, r₀⟩ := q
      rw [landOn, ih (toggle_fits hd c₀ r₀), collidesOnGrid_cons l hd, ← or_assoc]
      exact or_congr_left Bool.or_eq_true_iff

end

/-! ### What a draw does to the pixels and to VF (40_display.md R93 to R96) -/

section
variable {s : State} (x y : RegIx) (n : Nibble)

@[simp] theorem State.drawBody_pc (s : State) : (s.drawBody x y n).pc = s.pc := rfl
@[simp] theorem State.drawBody_dt (s : State) : (s.drawBody x y n).dt = s.dt := rfl
@[simp] theorem State.drawBody_st (s : State) : (s.drawBody x y n).st = s.st := rfl
@[simp] theorem State.drawBody_vblankSeen (s : State) : (s.drawBody x y n).vblankSeen = false := rfl
@[simp] theorem State.drawBody_status (s : State) : (s.drawBody x y n).status = some .completed := rfl

/-- The vblank flag is cleared before anything is drawn, so its value makes no difference. -/
theorem State.setVblankSeen_drawBody (s : State) (b : Bool) :
    (s.setVblankSeen b).drawBody x y n = s.drawBody x y n := rfl

theorem State.drawBody_pix (hd : s.displayFits) {c r : Nat} (hc : c < s.cfg.width) (hr : r < s.cfg.height) :
    (s.drawBody x y n).pix c r = (s.pix c r ^^ decide (s.spriteHits x y n c r % 2 = 1)) := by
  show Display.pix (s.drawSprite x y n).1 c r = _
  rw [State.drawSprite_eq, State.spriteHits_eq_hitsOn, foldl_landOn_pix (p := (s.display, false)) _ hd hc hr]
  rfl

theorem State.drawSprite_flag (hd : s.displayFits) :
    (s.drawSprite x y n).2 = true ↔
      ∃ c r, c < s.cfg.width ∧ r < s.cfg.height ∧ collides (s.pix c r) (s.spriteHits x y n c r) := by
  simp only [State.drawSprite_eq, State.spriteHits_eq_hitsOn]
  rw [foldl_landOn_flag (p := (s.display, false)) _ hd]
  exact or_iff_right Bool.false_ne_true

theorem State.drawBody_vf (s : State) : (s.drawBody x y n).getV vf = flagByte (s.drawSprite x y n).2 :=
  State.getV_setV_same _ vf _

theorem State.drawBody_vf_one (hd : s.displayFits) {c r : Nat} (hc : c < s.cfg.width) (hr : r < s.cfg.height)
    (hcol : collides (s.pix c r) (s.spriteHits x y n c r)) : (s.drawBody x y n).getV vf = 1#8 := by
  rw [State.drawBody_vf, (State.drawSprite_flag x y n hd).mpr ⟨c, r, hc, hr, hcol⟩]
  rfl

theorem State.drawBody_vf_zero (hd : s.displayFits)
    (hcol : ∀ c r, c < s.cfg.width → r < s.cfg.height → ¬ collides (s.pix c r) (s.spriteHits x y n c r)) :
    (s.drawBody x y n).getV vf = 0#8 := by
  have hflag : (s.drawSprite x y n).2 = false := Bool.eq_false_iff.mpr fun ht =>
    have ⟨c, r, hc, hr, h⟩ := (State.drawSprite_flag x y n hd).mp ht
    hcol c r hc hr h
  rw [State.drawBody_vf, hflag]
  rfl

theorem State.drawBody_displayFits (hd : s.displayFits) : (s.drawBody x y n).displayFits :=
  s.drawSprite_fits x y n hd

/-- No pixel outside the grid changes: all of them read clear before and after. -/
theorem State.drawBody_onGrid (hd : s.displayFits) :
    SameOutside (fun p => p = .reg vf ∨ p = .vblankSeen ∨
      ∃ c r, c < s.cfg.width ∧ r < s.cfg.height ∧ p = .pixel c r) s (s.drawBody x y n) := by
  intro p hp
  by_cases hpix : ∃ c r, p = .pixel c r
  · obtain ⟨c, r, rfl⟩ := hpix
    have hout : ¬ (c < s.cfg.width ∧ r < s.cfg.height) := fun ⟨hc, hr⟩ => hp (.inr (.inr ⟨c, r, hc, hr, rfl⟩))
    exact (Display.pix_outside (State.drawBody_displayFits x y n hd) hout).trans (Display.pix_outside hd hout).symm
  · refine s.drawBody_outside x y n p fun hw => hp ?_
    have hw : p = .reg vf ∨ p = .vblankSeen := by simpa [hpix] using hw
    exact hw.imp_right .inl

end

/-! ### The gate (40_display.md R92) -/

theorem State.drawGated_eq_false {s : State} (h : s.cfg.quirks.displayWait = false ∨ s.vblankSeen = true) :
    s.drawGated = false := by
  rcases h with h | h <;> simp [State.drawGated, h]

theorem State.drawGated_eq_true {s : State} (hwait : s.cfg.quirks.displayWait = true) (hseen : s.vblankSeen = false) :
    s.drawGated = true := by
  simp [State.drawGated, hwait, hseen]

/-- A draw behind a shut gate under the faker is the draw after a tick, which opens the gate. -/
theorem exec_drw_tick {s : State} (x y : RegIx) (n : Nibble) (h : s.drawGated = true)
    (hf : s.cfg.quirks.displayWaitFaker = true) : exec (.drw x y n) s = exec (.drw x y n) s.tick := by
  rw [exec_drw_faker x y n h hf, exec_drw_open x y n (State.drawGated_eq_false (.inr rfl))]

/-- Settles O36: by the three courses of Dxyn. -/
theorem drwGate : Obligations.DrwGate := by
  refine fun s x y n => ⟨fun hwait hseen hfaker => ?_, fun hwait hseen hfaker => ?_, fun hwait => ?_⟩
  · exact ⟨_, exec_drw_blocked x y n (State.drawGated_eq_true hwait hseen) hfaker, s.block_blocked _⟩
  · have hgated := State.drawGated_eq_true hwait hseen
    exact ⟨exec_drw_tick x y n hgated hfaker, _, exec_drw_faker x y n hgated hfaker,
      s.tick.drawBody_status x y n, s.tick.drawBody_pc x y n, s.tick.drawBody_dt x y n, s.tick.drawBody_st x y n,
      s.tick.drawBody_vblankSeen x y n⟩
  · have hopen := exec_drw_open x y n (State.drawGated_eq_false (.inl hwait))
    refine ⟨fun b => ?_, _, hopen, rfl, rfl, rfl⟩
    rw [hopen, exec_drw_open (s := s.setVblankSeen b) x y n (State.drawGated_eq_false (.inl hwait)),
      State.setVblankSeen_drawBody]

/-! ### One draw, and two (40_display.md R91, R97 (d)) -/

theorem spriteTarget_clip {cfg : Config} (h : cfg.quirks.clipping = true) (px py : Nat) :
    spriteTarget cfg px py = if px < cfg.width ∧ py < cfg.height then some (px, py) else none := by
  rw [spriteTarget, if_pos h]
  by_cases hin : px < cfg.width ∧ py < cfg.height
  · rw [if_neg (by omega), if_pos hin]
  · rw [if_pos (by omega), if_neg hin]

theorem spriteTarget_wrap {cfg : Config} (h : cfg.quirks.clipping = false) (px py : Nat) :
    spriteTarget cfg px py = some (px % cfg.width, py % cfg.height) := by
  rw [spriteTarget, if_neg (by simp [h])]

/-- Settles O35: the gate is open, so the body runs; its pixels and its flag are those of the landings of the sprite's
bits. -/
theorem drwTogglesHitPixels : Obligations.DrwTogglesHitPixels := by
  refine ⟨fun cfg px py => ⟨(spriteTarget_clip · px py), (spriteTarget_wrap · px py)⟩, fun s x y n hd hgate => ?_⟩
  refine ⟨_, exec_drw_open x y n (State.drawGated_eq_false hgate), fun c r => State.drawBody_pix x y n hd, ?_, ?_, rfl,
    State.drawBody_displayFits x y n hd, rfl, rfl, State.drawBody_onGrid x y n hd⟩
  · rintro ⟨c, r, hc, hr, hcol⟩
    exact State.drawBody_vf_one x y n hd hc hr hcol
  · refine fun hnone => State.drawBody_vf_zero x y n hd fun c r hc hr hcol => ?_
    rcases hnone c r hc hr with ⟨hclear, honce⟩ | hzero
    · rcases hcol with ⟨hset, _⟩ | htwice
      · exact absurd (hclear.symm.trans hset) (by decide)
      · omega
    · rcases hcol with ⟨_, hhit⟩ | htwice <;> omega

/-- The hits depend on the sprite's bytes, its place and the configuration alone. -/
theorem State.spriteHits_congr {s u : State} {x y : RegIx} (hmem : u.mem = s.mem) (hcfg : u.cfg = s.cfg) (hi : u.i = s.i)
    (hx : u.getV x = s.getV x) (hy : u.getV y = s.getV y) (n : Nibble) (c r : Nat) :
    u.spriteHits x y n c r = s.spriteHits x y n c r := by
  have hbyte (k : Nat) : u.readByte (u.indexed k) = s.readByte (s.indexed k) := by
    unfold State.readByte State.indexed State.iAddr
    rw [hmem, hcfg, hi]
  simp only [State.spriteHits, hbyte, hcfg, hx, hy]

/-- Settles O37: the second draw flips each pixel by the parity the first did; a clear pixel that was hit collides in the
second (`collides_again`). -/
theorem drawTwiceRestoresDisplay : Obligations.DrawTwiceRestoresDisplay := by
  intro s t u x y n hd hopen ht hdisplay hmem hcfg hi hx hy hopen'
  obtain rfl : s.drawBody x y n = t := by
    rw [exec_drw_open x y n hopen] at ht
    exact Host.Outcome.next.inj ht
  have hhits := State.spriteHits_congr hmem hcfg hi hx hy n
  have hdu : u.displayFits := by
    unfold State.displayFits
    rw [hdisplay, hcfg]
    exact State.drawBody_displayFits x y n hd
  have hpix : ∀ c r, c < s.cfg.width → r < s.cfg.height →
      u.pix c r = (s.pix c r ^^ decide (s.spriteHits x y n c r % 2 = 1)) := fun c r hc hr => by
    rw [State.pix, hdisplay]
    exact State.drawBody_pix x y n hd hc hr
  refine ⟨_, exec_drw_open x y n hopen', fun c r hc hr => ?_, ?_⟩
  · rw [State.drawBody_pix x y n hdu (by rwa [hcfg]) (by rwa [hcfg]), hhits, hpix c r hc hr, Bool.xor_assoc, Bool.xor_self,
      Bool.xor_false]
  · rintro ⟨c, r, hc, hr, hclear, hhit⟩
    refine State.drawBody_vf_one x y n hdu (by rwa [hcfg]) (by rwa [hcfg]) ?_
    rw [hhits, hpix c r hc hr, hclear]
    exact collides_again hhit

end Sys2Proof.Machine
end

section
/-! PROOFS. The statements of 41_control_flow.md: jumps, calls and returns, the skips; nested calls that unwind; and the jump
to its own address where a run ends (70_reset_and_hazards.md R181). -/

namespace Sys2Proof.Machine

/-! ### A jump to its own address (41_control_flow.md R101, 70_reset_and_hazards.md R181) -/

theorem State.endsWell_iff {s : State} :
    s.endsWell = true ↔ s.halt = none ∧ decode s.fetchWord = some (.jp s.pc) := by
  simp [State.endsWell]

/-- The jump takes back the advance of the fetch, so the step is the report of `Completed` and the end of the step. -/
theorem step_of_endsWell {s : State} (h : s.endsWell = true) : step s = .next (s.setStatus .completed).endStep := by
  obtain ⟨hhalt, hd⟩ := State.endsWell_iff.mp h
  exact step_of_instr hhalt hd

/-- Neither the status nor the latch has a part in how a run ends well. -/
theorem State.setStatus_endStep_endsWell (s : State) (r : Status) : (s.setStatus r).endStep.endsWell = s.endsWell := rfl

/-- Settles O18: the step reports `Completed` and clears the latch, and the fetched word and `PC` are as before. -/
theorem selfJumpRepeats : Obligations.SelfJumpRepeats := by
  intro s h
  have hstep := step_of_endsWell h
  exact ⟨⟨_, hstep, rfl⟩, _, hstep, rfl, rfl, rfl, s.setStatus_endStep_same _,
    (s.setStatus_endStep_endsWell _).trans h⟩

/-! ### Calls and returns (41_control_flow.md R100, R102) -/

/-- What 00EE and 2nnn both do when they do not fault: the stack and `PC` written, and nothing else. -/
theorem State.setStack_setPc_completed (s : State) (l : List Addr) (a : Addr) :
    CompletedExcept [.stack] s ((s.setStack l).setPc a).complete :=
  ((s.setStack_same l).trans ((State.setPc_same _ a).mono (List.nil_subset _))).complete

/-- 2nnn with room on the stack (41_control_flow.md R102). -/
theorem exec_call_pushes {s : State} (nnn : Addr) (h : s.sp < s.cfg.stackDepth) :
    ∃ t, exec (.call nnn) s = .next t ∧ t.pc = nnn ∧ t.stack = s.pc :: s.stack ∧ CompletedExcept [.stack] s t :=
  ⟨_, exec_call_room nnn h, rfl, rfl, s.setStack_setPc_completed _ _⟩

/-- 00EE with an entry on the stack (41_control_flow.md R100). -/
theorem exec_ret_pops {s : State} {a : Addr} {rest : List Addr} (h : s.stack = a :: rest) :
    ∃ t, exec .ret s = .next t ∧ t.pc = a ∧ t.stack = rest ∧ CompletedExcept [.stack] s t :=
  ⟨_, exec_ret_cons h, rfl, rfl, s.setStack_setPc_completed _ _⟩

/-- Settles O38: the `x` nibble is not examined; the two courses are those of a nonempty and of an empty stack. -/
theorem retPopsIntoPc : Obligations.RetPopsIntoPc :=
  ⟨decode_wordXB_ret, fun _ _ _ h => exec_ret_pops h, fun s h => ⟨_, exec_ret_nil h, s.raise_tookFault _⟩⟩

/-- Settles O40: the two courses are those of a stack with room and of a full one. -/
theorem callPushesAndJumps : Obligations.CallPushesAndJumps := by
  refine ⟨fun nnn => decode_encode (.call nnn), fun s nnn hroom => ?_, fun s nnn hfull => ?_⟩
  · obtain ⟨t, hexec, hpc, hstack, hframe⟩ := exec_call_pushes nnn hroom
    exact ⟨t, hexec, hpc, hstack, congrArg List.length hstack, hframe⟩
  · exact ⟨_, exec_call_full nnn hfull.ge, s.raise_tookFault _⟩

/-! ### Nested calls and as many returns (41_control_flow.md R109) -/

theorem execAll_cons {i : Instr} {s t : State} (rest : List Instr) (h : exec i s = .next t) :
    execAll (i :: rest) s = execAll rest t := by
  rw [execAll, h]

/-- The stack alone was written, and holds again what it held. -/
theorem SameExcept.of_stack_restored {s t : State} (h : SameExcept [.stack] s t) (hstack : t.stack = s.stack) :
    SameExcept [] s t := by
  intro p _
  by_cases hp : p = .stack
  · subst hp
    exact hstack
  · exact h p (by simpa using hp)

/-- Nested calls leave the return address of the first above the stack there was, and above it one for each nested call. -/
theorem execAll_calls (nested : List Addr) {s : State} (first : Addr)
    (hroom : s.sp + nested.length + 1 ≤ s.cfg.stackDepth) :
    ∃ t above, execAll ((first :: nested).map Instr.call) s = .next t ∧ above.length = nested.length ∧
      t.stack = above ++ s.pc :: s.stack ∧ t.pc = nested.getLastD first ∧ SameExcept [.stack] s t := by
  induction nested generalizing s first with
  | nil =>
    obtain ⟨t, hexec, hpc, hstack, -, hframe⟩ := exec_call_pushes first hroom
    exact ⟨t, [], execAll_cons [] hexec, rfl, hstack, hpc, hframe⟩
  | cons second nested ih =>
    rw [List.length_cons] at hroom
    obtain ⟨t, hexec, hpc, hstack, -, hframe⟩ := exec_call_pushes (s := s) first (by omega)
    have hsp : t.sp = s.sp + 1 := congrArg List.length hstack
    have hcfg : t.cfg = s.cfg := exec_cfg hexec
    obtain ⟨u, above, hrun, hlen, hustack, hupc, huframe⟩ := ih (s := t) second (by rw [hsp, hcfg]; omega)
    refine ⟨u, above ++ [first], (execAll_cons _ hexec).trans hrun, ?_, ?_, ?_, hframe.trans huframe⟩
    · rw [List.length_append, hlen, List.length_singleton, List.length_cons]
    · rw [hustack, hpc, hstack, List.append_assoc, List.singleton_append]
    · rw [hupc, List.getLastD_cons]

/-- Returns pop the entries above a return address, and then that address into `PC`. -/
theorem execAll_rets (above : List Addr) {t : State} {a : Addr} {rest : List Addr}
    (hstack : t.stack = above ++ a :: rest) :
    ∃ u, execAll (List.replicate (above.length + 1) Instr.ret) t = .next u ∧ u.pc = a ∧ u.stack = rest ∧
      SameExcept [.stack] t u := by
  induction above generalizing t with
  | nil =>
    obtain ⟨u, hexec, hpc, hrest, -, hframe⟩ := exec_ret_pops hstack
    exact ⟨u, execAll_cons [] hexec, hpc, hrest, hframe⟩
  | cons b above ih =>
    obtain ⟨v, hexec, -, hrest, -, hframe⟩ := exec_ret_pops hstack
    obtain ⟨u, hrun, hpc, hurest, huframe⟩ := ih hrest
    exact ⟨u, (execAll_cons _ hexec).trans hrun, hpc, hurest, hframe.trans huframe⟩

/-- Settles O41: the calls leave the first return address below one for each nested call, and the returns pop down to it. -/
theorem callsThenReturnsUnwind : Obligations.CallsThenReturnsUnwind := by
  intro s first nested hroom
  obtain ⟨t, above, hcalls, hlen, htstack, htpc, htframe⟩ := execAll_calls nested first hroom
  obtain ⟨u, hrets, hupc, hustack, huframe⟩ := execAll_rets above htstack
  have hsp : t.sp = s.sp + nested.length + 1 := by
    rw [State.sp, htstack, List.length_append, List.length_cons, hlen, State.sp]
    omega
  rw [hlen] at hrets
  exact ⟨t, u, hcalls, hsp, htpc, hrets, hupc, hustack, (htframe.trans huframe).of_stack_restored hustack⟩

/-! ### Jumps (41_control_flow.md R101, R108) -/

/-- Settles O39: 1nnn writes `PC` alone. -/
theorem jpSetsPc : Obligations.JpSetsPc :=
  fun s nnn => ⟨decode_encode (.jp nnn), _, rfl, rfl, (s.setPc_same nnn).complete⟩

/-- The high nibble of an address, the `x` of Bnnn under `jumping` (41_control_flow.md R108). -/
theorem addr_highNibble (nnn : Addr) : nnn.extractLsb' 8 4 = BitVec.ofNat 4 (nnn.toNat / 256) := by
  apply BitVec.eq_of_toNat_eq
  rw [BitVec.extractLsb'_toNat, BitVec.toNat_ofNat, Nat.shiftRight_eq_div_pow]

/-- The value Bnnn adds, with `jumping` on and off (41_control_flow.md R108). -/
theorem State.getV_jumpRegister (s : State) (nnn : Addr) :
    s.getV (s.jumpRegister nnn) =
      if s.cfg.quirks.jumping then s.getV (BitVec.ofNat 4 (nnn.toNat / 256)) else s.getV 0#4 := by
  rw [State.jumpRegister, addr_highNibble, apply_ite s.getV]

/-- A byte added to an address, modulo 4096 (20_memory.md R51). -/
theorem addr_add_byte_toNat (a : Addr) (b : Byte) : (a + b.setWidth 12).toNat = (a.toNat + b.toNat) % 4096 := by
  rw [BitVec.toNat_add, BitVec.toNat_setWidth, Nat.add_mod_mod]

/-- Settles O44: Bnnn writes `PC` alone, the sum of nnn and the register that `jumping` chooses. -/
theorem jpV0AddsOffset : Obligations.JpV0AddsOffset := by
  refine fun s nnn => ⟨decode_encode (.jpV0 nnn), _, rfl, ?_, (s.setPc_same _).complete⟩
  rw [← s.getV_jumpRegister]
  exact addr_add_byte_toNat nnn _

/-! ### Skips (41_control_flow.md R103 to R107) -/

/-- `PC` after a skip on equality. -/
theorem State.skipIf_eq_pc (s : State) (a b : Byte) :
    (s.skipIf (a = b)).pc = if a = b then s.pc + 2#12 else s.pc := by
  simp only [State.skipIf_pc, decide_eq_true_eq]

/-- `PC` after a skip on difference. -/
theorem State.skipIf_ne_pc (s : State) (a b : Byte) :
    (s.skipIf (a ≠ b)).pc = if a = b then s.pc else s.pc + 2#12 := by
  simp only [State.skipIf_pc, decide_eq_true_eq, ne_eq, ite_not]

/-- Settles O42: both skips compare Vx with nn and write `PC` alone. -/
theorem skipsComparingByte : Obligations.SkipsComparingByte :=
  fun s x nn => ⟨decode_encode (.seByte x nn), decode_encode (.sneByte x nn),
    ⟨_, rfl, s.skipIf_eq_pc _ _, (s.skipIf_same _).complete⟩, _, rfl, s.skipIf_ne_pc _ _, (s.skipIf_same _).complete⟩

/-- Settles O43: the low nibble is not examined; both skips compare Vx with Vy and write `PC` alone. -/
theorem skipsComparingRegisters : Obligations.SkipsComparingRegisters :=
  fun s x y => ⟨fun n => ⟨decode_wordXYN_family5 x y n, decode_wordXYN_family9 x y n⟩,
    ⟨_, rfl, s.skipIf_eq_pc _ _, (s.skipIf_same _).complete⟩, _, rfl, s.skipIf_ne_pc _ _, (s.skipIf_same _).complete⟩

end Sys2Proof.Machine
end

section
/-! PROOFS. The statements of 42_alu.md: the register loads, the logic operations with `vf_reset`, the operations that end
with VF as their flag, and the random byte. -/

namespace Sys2Proof.Machine

/-! ### A register written, and the instruction completed (42_alu.md R110 to R112) -/

/-- What the instructions that write Vx and no flag do. -/
theorem exec_of_setV {i : Instr} {s : State} {x : RegIx} {b : Byte} (h : exec i s = .next (s.setV x b).complete) :
    ∃ t, exec i s = .next t ∧ t.getV x = b ∧ t.pc = s.pc ∧ CompletedExcept [.reg x] s t :=
  ⟨_, h, s.getV_setV_same x b, rfl, (s.setV_same x b).complete⟩

/-- Settles O45: each of the three writes Vx alone; the sum of 7xnn is one of bytes, so it is modulo 256. -/
theorem loadsAndAddByte : Obligations.LoadsAndAddByte := by
  refine fun s x y nn => ⟨decode_encode (.ldByte x nn), decode_encode (.addByte x nn), decode_encode (.ldReg x y),
    exec_of_setV rfl, ?_, exec_of_setV rfl⟩
  obtain ⟨t, hexec, hsum, hpc, hframe⟩ := exec_of_setV (i := .addByte x nn) (s := s) rfl
  exact ⟨t, hexec, by rw [hsum, BitVec.toNat_add], hpc, hframe⟩

/-! ### The logic operations (42_alu.md R113 to R115) -/

@[simp] theorem State.setVThenReset_pc (s : State) (x : RegIx) (b : Byte) : (s.setVThenReset x b).pc = s.pc := by
  unfold State.setVThenReset
  split <;> rfl

/-- Settles O46: the three differ in the result alone; `vf_reset` then chooses between VF written last and Vx alone. -/
theorem logicOperations : Obligations.LogicOperations := by
  refine ⟨fun x y => ⟨decode_encode (.orReg x y), decode_encode (.andReg x y), decode_encode (.xorReg x y)⟩,
    fun s x y i result hi => ?_⟩
  have hexec : exec i s = .next (s.setVThenReset x result).complete := by
    simp only [List.mem_cons, List.not_mem_nil, or_false, Prod.mk.injEq] at hi
    obtain ⟨rfl, rfl⟩ | ⟨rfl, rfl⟩ | ⟨rfl, rfl⟩ := hi <;> rfl
  refine ⟨_, hexec, s.setVThenReset_pc x result, fun hon => ?_, fun hoff => ?_⟩
  · rw [s.setVThenReset_on x result hon]
    exact ⟨s.setVThenFlag_flag x result 0#8, s.setVThenFlag_result result 0#8, (s.setVThenFlag_same x result 0#8).complete⟩
  · rw [s.setVThenReset_off x result hoff]
    exact ⟨s.getV_setV_same x result, (s.setV_same x result).complete⟩

/-! ### Vx written and then the flag (42_alu.md R116 to R120, 00_scope.md R13) -/

/-- What the instructions that write Vx and the flag last do, the result and the flag read as the numbers of R123. -/
theorem exec_of_setVThenFlag {i : Instr} {s : State} {x : RegIx} {b f : Byte} {n : Nat}
    (h : exec i s = .next (s.setVThenFlag x b f).complete) (hb : b.toNat = n) :
    ∃ t, exec i s = .next t ∧ (x ≠ vf → (t.getV x).toNat = n) ∧ t.getV vf = f ∧ t.pc = s.pc ∧
      CompletedExcept [.reg x, .reg vf] s t :=
  ⟨_, h, fun hx => hb ▸ congrArg BitVec.toNat (s.setVThenFlag_result b f hx), s.setVThenFlag_flag x b f, rfl,
    (s.setVThenFlag_same x b f).complete⟩

theorem flagByte_decide (p : Prop) [Decidable p] : flagByte (decide p) = if p then 1#8 else 0#8 := by
  simp only [flagByte, decide_eq_true_eq]

/-- A difference of bytes, modulo 256 (42_alu.md R123). -/
theorem byte_sub_toNat (a b : Byte) : (a - b).toNat = (a.toNat + 256 - b.toNat) % 256 := by
  have := b.isLt
  rw [BitVec.toNat_sub]
  omega

/-- Settles O47: the sum is one of bytes, so it is modulo 256, and the carry is that of the numbers. -/
theorem addSetsCarry : Obligations.AddSetsCarry := by
  refine fun s x y => ⟨decode_encode (.addReg x y), ?_⟩
  rw [← flagByte_decide]
  exact exec_of_setVThenFlag rfl (BitVec.toNat_add _ _)

/-- Settles O48: both write the difference of their operands and then whether nothing was borrowed. -/
theorem subtractionsSetNoBorrow : Obligations.SubtractionsSetNoBorrow := by
  refine fun s x y => ⟨decode_encode (.subReg x y), decode_encode (.subnReg x y), ?_, ?_⟩
  · rw [← flagByte_decide]
    exact exec_of_setVThenFlag rfl (byte_sub_toNat _ _)
  · rw [← flagByte_decide]
    exact exec_of_setVThenFlag rfl (byte_sub_toNat _ _)

/-! ### The shifts (42_alu.md R118, R120) -/

theorem byte_shiftRight_one_toNat (a : Byte) : (a >>> 1).toNat = a.toNat / 2 := by
  rw [BitVec.toNat_ushiftRight, Nat.shiftRight_one]

theorem byte_shiftLeft_one_toNat (a : Byte) : (a <<< 1).toNat = a.toNat * 2 % 256 := by
  rw [BitVec.toNat_shiftLeft, Nat.shiftLeft_eq]

/-- Bit 0 of a byte is its remainder by 2. -/
theorem lowBitFlag_toNat (a : Byte) : (lowBitFlag a).toNat = a.toNat % 2 := by
  rw [lowBitFlag, BitVec.toNat_and]
  exact Nat.and_one_is_mod _

/-- Bit 7 of a byte is its quotient by 128. -/
theorem highBitFlag_toNat (a : Byte) : (highBitFlag a).toNat = a.toNat / 128 := by
  have := a.isLt
  rw [highBitFlag, BitVec.getLsbD, Nat.testBit_eq_decide_div_mod_eq, flagByte_decide]
  split
  · change 1 = a.toNat / 128
    omega
  · change 0 = a.toNat / 128
    omega

/-- Settles O49: both shift the source that `shifting` chooses, and then write the bit shifted out. -/
theorem shiftsSetBitOut : Obligations.ShiftsSetBitOut := by
  rintro s x y src rfl
  obtain ⟨t, hshr, hres, hflag, hframe⟩ := exec_of_setVThenFlag (i := .shr x y) (s := s) rfl (byte_shiftRight_one_toNat _)
  obtain ⟨u, hshl, hures, huflag, huframe⟩ := exec_of_setVThenFlag (i := .shl x y) (s := s) rfl (byte_shiftLeft_one_toNat _)
  exact ⟨decode_encode (.shr x y), decode_encode (.shl x y),
    ⟨t, hshr, hres, hflag ▸ lowBitFlag_toNat _, hframe⟩, u, hshl, hures, huflag ▸ highBitFlag_toNat _, huframe⟩

/-! ### The random byte (42_alu.md R121, R122) -/

/-- Cxnn writes the count of draws and Vx, and nothing else. -/
theorem exec_rnd_frame (s : State) (x : RegIx) (nn : Byte) :
    CompletedExcept [.reg x, .draws] s (s.randomByte.2.setV x (s.randomByte.1 &&& nn)).complete :=
  (((s.setDraws_same _).append (State.setV_same _ x _)).mono (by simp)).complete

/-- Settles O50: the byte is that of the next draw, whatever the source gives for it, and a mask of 0 clears it. -/
theorem rndMasksRandomByte : Obligations.RndMasksRandomByte := by
  intro s x nn
  have hmask := State.getV_setV_same s.randomByte.2 x (s.randomByte.1 &&& nn)
  refine ⟨decode_encode (.rnd x nn), _, _, rfl, rfl, hmask, fun hnn => hmask.trans ?_, rfl, rfl, exec_rnd_frame s x nn⟩
  rw [hnn, BitVec.and_zero]

end Sys2Proof.Machine
end

section
/-! PROOFS. The statements of 43_index_memory.md: the loads of `I`, the digits stored by Fx33, and the registers stored by
Fx55 and loaded by Fx65. -/

namespace Sys2Proof.Machine

/-! ### The loads of `I` (43_index_memory.md R125, R129, R130) -/

/-- What the instructions that write `I` alone do, the sum or product read as a number modulo 4096 (10_state.md R27). -/
theorem exec_of_setI {i : Instr} {s : State} {n : BitVec 16} {m : Nat} (h : exec i s = .next (s.setI n).complete)
    (hn : n.toNat % 4096 = m) : ∃ t, exec i s = .next t ∧ t.i.toNat = m ∧ t.pc = s.pc ∧ CompletedExcept [.index] s t :=
  ⟨_, h, (s.setI_toNat n).trans hn, rfl, (s.setI_same n).complete⟩

/-- An address held in 16 bits is below 4096. -/
theorem addr_setWidth_toNat_mod (a : Addr) : (a.setWidth 16).toNat % 4096 = a.toNat := by
  rw [BitVec.toNat_setWidth]
  omega

/-- A byte added to the 16 bits of `I`: the carry out of them is a multiple of 4096. -/
theorem index_add_byte_toNat_mod (n : BitVec 16) (b : Byte) :
    (n + b.setWidth 16).toNat % 4096 = (n.toNat + b.toNat) % 4096 := by
  rw [BitVec.toNat_add, BitVec.toNat_setWidth]
  omega

/-- The glyph address is not cut off by 16 bits: the whole of Vx counts (43_index_memory.md R130). -/
theorem byte_mul_five_toNat (b : Byte) : (b.setWidth 16 * 5#16).toNat = b.toNat * 5 := by
  rw [BitVec.toNat_mul, BitVec.toNat_setWidth, BitVec.toNat_ofNat]
  omega

/-- Settles O51: each of the three writes `I` alone, and `I` is written modulo 4096. -/
theorem indexLoads : Obligations.IndexLoads :=
  fun s x nnn => ⟨decode_encode (.ldI nnn), decode_encode (.addI x), decode_encode (.ldF x),
    exec_of_setI rfl (addr_setWidth_toNat_mod nnn), exec_of_setI rfl (index_add_byte_toNat_mod s.i _),
    exec_of_setI rfl (congrArg (· % 4096) (byte_mul_five_toNat _))⟩

/-! ### Whether a store faults (20_memory.md R52) -/

theorem State.storeFaults_eq_false {s : State} {count : Nat}
    (h : s.cfg.fontWrite = .discard ∨ ∀ k, k < count → 80 ≤ (s.indexed k).toNat) : s.storeFaults count = false := by
  refine Bool.eq_false_iff.mpr fun hfaults => ?_
  obtain ⟨hfault, k, hk, hfont⟩ := (s.storeFaults_iff count).mp hfaults
  rcases h with hdiscard | hram
  · simp [hdiscard] at hfault
  · exact absurd hfont (Nat.not_lt.mpr (hram k hk))

theorem State.storeFaults_eq_true {s : State} {count k : Nat} (hfault : s.cfg.fontWrite = .fault) (hk : k < count)
    (hfont : (s.indexed k).toNat < 80) : s.storeFaults count = true :=
  (s.storeFaults_iff count).mpr ⟨hfault, k, hk, hfont⟩

theorem State.writeBytes_pc (s : State) (a : Addr) (l : List Byte) : (s.writeBytes a l).pc = s.pc := by
  obtain ⟨m, hm⟩ := s.writeBytes_frame a l
  rw [hm]
  rfl

/-! ### Fx33 (43_index_memory.md R131) -/

@[simp] theorem bcdDigits_length (b : Byte) : (bcdDigits b).length = 3 := rfl

/-- The bytes of the digits are the digits: each is below 256. -/
theorem bcdDigits_getElem_toNat {b : Byte} {k d : Nat}
    (h : (k, d) ∈ [(0, b.toNat / 100), (1, b.toNat / 10 % 10), (2, b.toNat % 10)]) :
    ∃ hk : k < (bcdDigits b).length, (bcdDigits b)[k].toNat = d := by
  simp only [List.mem_cons, List.not_mem_nil, or_false, Prod.mk.injEq] at h
  obtain ⟨rfl, rfl⟩ | ⟨rfl, rfl⟩ | ⟨rfl, rfl⟩ := h <;>
    exact ⟨by simp, Nat.mod_eq_of_lt (by omega)⟩

/-- Settles O52: the store of the digits leaves them at `I` to `I + 2`, unless a font cell among the three makes it
fault. -/
theorem bcdStoresDigits : Obligations.BcdStoresDigits := by
  refine ⟨fun x => decode_encode (.ldB x), fun s x hstore => ?_, fun s x k hfault hk hfont => ?_⟩
  · refine ⟨_, exec_ldB_store x (State.storeFaults_eq_false hstore), fun k d hd => ?_, s.writeBytes_pc _ _,
      (s.writeBytes_same _).complete⟩
    obtain ⟨hk, hdigit⟩ := bcdDigits_getElem_toNat hd
    have hread := s.readByte_writeBytes_same s.iAddr (bcdDigits (s.getV x)) (by simp) k hk
    rw [← hdigit, ← apply_ite BitVec.toNat]
    exact congrArg BitVec.toNat hread
  · exact ⟨_, exec_ldB_fault x (State.storeFaults_eq_true hfault hk hfont), s.raise_tookFault _⟩

/-! ### How Fx55 and Fx65 end: the step of `I` (43_index_memory.md R132, R133) -/

/-- After a transfer that wrote neither `I` nor the configuration, the step of `I` is the one of the state before it. -/
theorem SameExcept.stepIndex_complete {w : List Part} {s u : State} (h : SameExcept w s u) (hindex : Part.index ∉ w)
    (hconfig : Part.config ∉ w) (hpc : u.pc = s.pc) (x : RegIx) :
    (s.cfg.quirks.memoryIncrement = true → (u.stepIndex x).complete.i.toNat = (s.i.toNat + x.toNat + 1) % 4096) ∧
      (s.cfg.quirks.memoryIncrement = false → (u.stepIndex x).complete.i = s.i) ∧
      (u.stepIndex x).complete.pc = s.pc ∧ CompletedExcept (.index :: w) s (u.stepIndex x).complete := by
  have hi : u.i = s.i := h .index hindex
  have hcfg : u.cfg = s.cfg := h .config hconfig
  refine ⟨fun hon => ?_, fun hoff => ?_, (u.stepIndex_pc x).trans hpc, ?_⟩
  · rw [← hi]
    exact u.stepIndex_on x (hcfg ▸ hon)
  · rw [u.stepIndex_off x (hcfg ▸ hoff)]
    exact hi
  · have hwritten : SameExcept (.index :: w) s u := h.mono (List.subset_cons_self _ _)
    exact (hwritten.trans ((u.stepIndex_same x).mono (by simp))).complete

/-! ### Fx55 (43_index_memory.md R132) -/

/-- The store of the registers writes the bytes at `I` to `I + x` alone. -/
theorem State.writeBytes_registersTo_same (s : State) (x : RegIx) :
    SameExcept (s.storedParts (x.toNat + 1)) s (s.writeBytes s.iAddr (s.registersTo x)) :=
  s.registersTo_length x ▸ s.writeBytes_same (s.registersTo x)

/-- Settles O53: the store leaves the registers at `I` to `I + x` and then steps `I`, unless a font cell among those
makes it fault. -/
theorem storeRegistersToMemory : Obligations.StoreRegistersToMemory := by
  refine ⟨fun x => decode_encode (.storeRegs x), fun s x hstore => ?_, fun s x k hfault hk hfont => ?_⟩
  · refine ⟨s.storedRegs x, exec_storeRegs_store x (State.storeFaults_eq_false ?_), fun r hr => ?_,
      (s.writeBytes_registersTo_same x).stepIndex_complete (by simp [State.mem_storedParts])
        (by simp [State.mem_storedParts]) (s.writeBytes_pc _ _) x⟩
    · exact hstore.imp_right fun hram k hk => hram k (Nat.le_of_lt_succ hk)
    · rw [s.storedRegs_readByte hr, BitVec.ofNat_toNat, BitVec.setWidth_eq]
  · exact ⟨_, exec_storeRegs_fault x (State.storeFaults_eq_true hfault (Nat.lt_succ_of_le hk) hfont),
      s.raise_tookFault _⟩

/-! ### Fx65 (43_index_memory.md R133) -/

theorem State.loadRegistersTo_pc (s : State) (x : RegIx) : (s.loadRegistersTo x).pc = s.pc := by
  obtain ⟨⟨file, hfile⟩, _⟩ := s.loadRegistersTo_spec x
  rw [hfile]

/-- A loaded register holds its byte; the step of `I` that follows writes no register. -/
theorem State.loadRegistersTo_stepIndex_getV (s : State) {x r : RegIx} (hr : r.toNat ≤ x.toNat) :
    ((s.loadRegistersTo x).stepIndex x).complete.getV r = s.readByte (s.indexed r.toNat) := by
  have hstep : ((s.loadRegistersTo x).stepIndex x).getV r = (s.loadRegistersTo x).getV r :=
    State.stepIndex_same _ x (.reg r) (by simp)
  exact hstep.trans (((s.loadRegistersTo_spec x).2 r).trans (if_pos hr))

/-- Settles O54: Fx65 loads the registers and then steps `I`; it has no other course, so it does not fault. -/
theorem loadRegistersFromMemory : Obligations.LoadRegistersFromMemory :=
  fun s x => ⟨decode_encode (.loadRegs x), _, rfl, fun _ hr => s.loadRegistersTo_stepIndex_getV hr,
    (s.loadRegistersTo_same x).stepIndex_complete (by simp [mem_regsTo]) (by simp [mem_regsTo])
      (s.loadRegistersTo_pc x) x⟩

end Sys2Proof.Machine
end

section
/-! PROOFS. The statements of 44_timers_keys.md: the skips on a key, the moves between Vx and the timers, the wait for a key,
and that nothing but this wait reads the latch (R142, 70_reset_and_hazards.md R178). -/

namespace Sys2Proof.Machine

/-! ### Every instruction but Fx0A passes the latch through -/

section
variable (s : State) (l : Option Key)

theorem State.setLatch_skipIf (c : Bool) : (s.setLatch l).skipIf c = (s.skipIf c).setLatch l := by
  cases c <;> rfl

theorem State.setLatch_setVThenReset (x : RegIx) (b : Byte) :
    (s.setLatch l).setVThenReset x b = (s.setVThenReset x b).setLatch l := by
  simp only [State.setVThenReset, apply_ite (State.setLatch · l)]
  rfl

theorem State.setLatch_stepIndex (x : RegIx) : (s.setLatch l).stepIndex x = (s.stepIndex x).setLatch l := by
  simp only [State.stepIndex, apply_ite (State.setLatch · l)]
  rfl

theorem State.setLatch_writeByte (a : Addr) (x : Byte) :
    (s.setLatch l).writeByte a x = (s.writeByte a x).setLatch l := by
  simp only [State.writeByte, apply_ite (State.setLatch · l)]
  rfl

theorem State.setLatch_writeBytes (a : Addr) (bytes : List Byte) :
    (s.setLatch l).writeBytes a bytes = (s.writeBytes a bytes).setLatch l := by
  induction bytes generalizing s a with
  | nil => rfl
  | cons x rest ih => rw [State.writeBytes, State.writeBytes, State.setLatch_writeByte, ih]

theorem State.setLatch_loadRegistersTo (x : RegIx) :
    (s.setLatch l).loadRegistersTo x = (s.loadRegistersTo x).setLatch l :=
  List.foldl_hom (State.setLatch · l) (fun _ _ => rfl)

end

/-- The instruction does the same whatever the latch holds, and leaves it. -/
def PassesLatch (i : Instr) (s : State) (l : Option Key) : Prop :=
  exec i (s.setLatch l) = mapNext (State.setLatch · l) (exec i s)

/-- One course of an instruction, taken from both states. -/
theorem PassesLatch.of_course {i : Instr} {s t t' : State} {l : Option Key} (h : exec i s = .next t)
    (h' : exec i (s.setLatch l) = .next t') (e : t' = t.setLatch l) : PassesLatch i s l := by
  rw [PassesLatch, h, h', e]
  rfl

/-- One course of an instruction that ends by completing. -/
theorem PassesLatch.of_complete {i : Instr} {s u u' : State} {l : Option Key} (h : exec i s = .next u.complete)
    (h' : exec i (s.setLatch l) = .next u'.complete) (e : u' = u.setLatch l) : PassesLatch i s l :=
  .of_course h h' (congrArg State.complete e)

/-- NO INSTRUCTION BUT Fx0A READS OR WRITES THE LATCH (44_timers_keys.md R142): the latch chooses no course, and each course
commutes with writing it. -/
theorem exec_passesLatch {i : Instr} (hi : ∀ x, i ≠ .ldVxK x) (s : State) (l : Option Key) : PassesLatch i s l := by
  cases i with
  | ldVxK x => exact absurd rfl (hi x)
  | ret =>
    cases e : s.stack with
    | nil => exact .of_course (exec_ret_nil e) (exec_ret_nil e) rfl
    | cons a rest => exact .of_course (exec_ret_cons e) (exec_ret_cons e) rfl
  | call nnn =>
    rcases Nat.lt_or_ge s.sp s.cfg.stackDepth with e | e
    · exact .of_course (exec_call_room nnn e) (exec_call_room nnn e) rfl
    · exact .of_course (exec_call_full nnn e) (exec_call_full nnn e) rfl
  | drw x y n =>
    cases hg : s.drawGated with
    | false => exact .of_course (exec_drw_open x y n hg) (exec_drw_open x y n hg) rfl
    | true =>
      cases hf : s.cfg.quirks.displayWaitFaker with
      | true => exact .of_course (exec_drw_faker x y n hg hf) (exec_drw_faker x y n hg hf) rfl
      | false => exact .of_course (exec_drw_blocked x y n hg hf) (exec_drw_blocked x y n hg hf) rfl
  | skp x =>
    cases e : keyIndex s.cfg.keyOutOfRange (s.getV x) with
    | none => exact .of_course (exec_skp_none e) (exec_skp_none e) rfl
    | some k => exact .of_complete (exec_skp_key e) (exec_skp_key e) (s.setLatch_skipIf l _)
  | sknp x =>
    cases e : keyIndex s.cfg.keyOutOfRange (s.getV x) with
    | none => exact .of_course (exec_sknp_none e) (exec_sknp_none e) rfl
    | some k => exact .of_complete (exec_sknp_key e) (exec_sknp_key e) (s.setLatch_skipIf l _)
  | ldB x =>
    cases e : s.storeFaults 3 with
    | true => exact .of_course (exec_ldB_fault x e) (exec_ldB_fault x e) rfl
    | false => exact .of_complete (exec_ldB_store x e) (exec_ldB_store x e) (s.setLatch_writeBytes l _ _)
  | storeRegs x =>
    cases e : s.storeFaults (x.toNat + 1) with
    | true => exact .of_course (exec_storeRegs_fault x e) (exec_storeRegs_fault x e) rfl
    | false =>
      exact .of_complete (exec_storeRegs_store x e) (exec_storeRegs_store x e)
        ((congrArg (·.stepIndex x) (s.setLatch_writeBytes l _ _)).trans (State.setLatch_stepIndex _ l x))
  | loadRegs x =>
    exact .of_complete rfl rfl
      ((congrArg (·.stepIndex x) (s.setLatch_loadRegistersTo l x)).trans (State.setLatch_stepIndex _ l x))
  | seByte x nn => exact .of_complete rfl rfl (s.setLatch_skipIf l _)
  | sneByte x nn => exact .of_complete rfl rfl (s.setLatch_skipIf l _)
  | seReg x y => exact .of_complete rfl rfl (s.setLatch_skipIf l _)
  | sneReg x y => exact .of_complete rfl rfl (s.setLatch_skipIf l _)
  | orReg x y => exact .of_complete rfl rfl (s.setLatch_setVThenReset l x _)
  | andReg x y => exact .of_complete rfl rfl (s.setLatch_setVThenReset l x _)
  | xorReg x y => exact .of_complete rfl rfl (s.setLatch_setVThenReset l x _)
  | _ => rfl

/-- The end of a step overwrites whatever the latch held (30_encoding.md R85). -/
theorem mapNext_endStep_setLatch (o : Host.Outcome State Fault Refusal) (l : Option Key) :
    mapNext State.endStep (mapNext (State.setLatch · l) o) = mapNext State.endStep o := by
  cases o <;> rfl

/-- Settles O16: every course of a step but Fx0A's passes the latch through, and the end of the step clears it. -/
theorem latchReachesOnlyKeyWait : Obligations.LatchReachesOnlyKeyWait := by
  intro s l h
  cases hhalt : s.halt with
  | some f => rw [step_of_halted hhalt, step_of_halted (s := s.setLatch l) hhalt]; rfl
  | none =>
    have hkey := h.resolve_left (· hhalt)
    cases hd : decode s.fetchWord with
    | none => rw [step_of_unknown hhalt hd, step_of_unknown (s := s.setLatch l) hhalt hd]; rfl
    | some i =>
      have hpass : PassesLatch i s.advance l := exec_passesLatch (fun x hi => hkey x (hi ▸ hd)) _ l
      rw [step_of_instr hhalt hd, step_of_instr (s := s.setLatch l) hhalt hd]
      exact (congrArg (mapNext State.endStep) hpass).trans (mapNext_endStep_setLatch _ l)

/-! ### The skips on a key (44_timers_keys.md R135 to R137) -/

/-- `PC` after a skip on a key that is not held. -/
theorem State.skipIf_not_pc (s : State) (c : Bool) : (s.skipIf (!c)).pc = if c then s.pc else s.pc + 2#12 := by
  cases c <;> rfl

/-- Settles O56: the two courses are those of a number that names a key and of one that does not. -/
theorem keySkips : Obligations.KeySkips := by
  refine ⟨fun x => ⟨decode_encode (.skp x), decode_encode (.sknp x)⟩, fun s x k hk hnames => ?_, fun s x hrange hfault => ?_⟩
  · have hkey := keyIndex_some hk hnames
    exact ⟨⟨_, exec_skp_key hkey, s.skipIf_pc _, (s.skipIf_same _).complete⟩,
      _, exec_sknp_key hkey, s.skipIf_not_pc _, (s.skipIf_same _).complete⟩
  · have hkey := keyIndex_none.mpr ⟨hrange, hfault⟩
    exact ⟨⟨_, exec_skp_none hkey, s.raise_tookFault _⟩, _, exec_sknp_none hkey, s.raise_tookFault _⟩

/-! ### The timers (44_timers_keys.md R138 to R140) -/

/-- Settles O57: each of the three writes its destination alone, a whole byte. -/
theorem timerMoves : Obligations.TimerMoves :=
  fun s x => ⟨decode_encode (.ldVxDt x), decode_encode (.ldDtVx x), decode_encode (.ldStVx x), exec_of_setV rfl,
    ⟨_, rfl, rfl, rfl, (s.setDt_same _).complete⟩, _, rfl, rfl, rfl, (s.setSt_same _).complete⟩

/-! ### The wait for a key (44_timers_keys.md R141) -/

/-- A key number held in a byte. -/
theorem key_setWidth_toNat (k : Key) : (k.setWidth 8).toNat = k.toNat :=
  BitVec.toNat_setWidth_of_le (by decide)

/-- Settles O58: the two courses are those of a latched key and of an empty latch; `keys` chooses neither. -/
theorem keyWait : Obligations.KeyWait := by
  refine fun s x => ⟨decode_encode (.ldVxK x), fun k hlatch => ?_, fun hlatch => ?_⟩
  · refine ⟨_, exec_ldVxK_some x hlatch, ?_, rfl, rfl, ((s.setV_same x _).append (State.setLatch_same _ none)).complete⟩
    exact (congrArg BitVec.toNat (s.getV_setV_same x _)).trans (key_setWidth_toNat k)
  · exact ⟨_, exec_ldVxK_none x hlatch, s.block_blocked _⟩

end Sys2Proof.Machine
end

section
/-! PROOFS. The statements of 60_exceptions.md about one step: the status it reports (R145), the faults (R146, R147), the
unknown opcode (R148), and the timers (R156). -/

namespace Sys2Proof.Machine

/-! ### The courses of a step, by the status they report (60_exceptions.md R145) -/

/-- Taking a fault takes back the advance of the fetch: all it leaves is the record, of the step's own address and word, and
the status (60_exceptions.md R147). -/
theorem State.advance_raise (s : State) (kind : FaultKind) :
    s.advance.raise kind =
      (s.setHalt (some ⟨kind, s.pc, s.fetchWord⟩)).setStatus (.fault ⟨kind, s.pc, s.fetchWord⟩) := by
  unfold State.raise State.faultRecord State.instrAddr
  rw [State.advance_word, State.advance_instrAddr]
  rfl

/-- One course of a step for each status of the table, the state the step began in being `s`. -/
inductive StepCourse (s : State) : State → Prop where
  | completed (i : Instr) (u : State) (running : s.halt = none) (fetched : decode s.fetchWord = some i)
      (notHalted : u.halt = none) : StepCourse s u.complete.endStep
  | unknownOpcode (running : s.halt = none) (fetched : decode s.fetchWord = none) :
      StepCourse s (s.advance.unknownOpcode s.fetchWord).endStep
  | awaitingKey (x : RegIx) (running : s.halt = none) (fetched : decode s.fetchWord = some (.ldVxK x)) :
      StepCourse s (s.setStatus .awaitingKey).endStep
  | awaitingVblank (x y : RegIx) (n : Nibble) (running : s.halt = none)
      (fetched : decode s.fetchWord = some (.drw x y n)) : StepCourse s (s.setStatus .awaitingVblank).endStep
  | fault (kind : FaultKind) (running : s.halt = none) :
      StepCourse s ((s.setHalt (some ⟨kind, s.pc, s.fetchWord⟩)).setStatus (.fault ⟨kind, s.pc, s.fetchWord⟩)).endStep
  | halted (f : FaultRecord) (isHalted : s.halt = some f) : StepCourse s (s.reportHalted f).endStep

/-- A step takes one of these courses: the endings of an instruction, the advance of the fetch taken back. -/
theorem step_course {s t : State} (h : step s = .next t) : StepCourse s t := by
  rcases step_cases h with ⟨f, hs, rfl⟩ | ⟨hs, hd, rfl⟩ | ⟨i, u, hs, hd, _, hend, rfl⟩
  · exact .halted f hs
  · exact .unknownOpcode hs hd
  · cases hend with
    | completed u hu => exact .completed i u hs hd (hu.trans hs)
    | awaitingKey x hi =>
      rw [State.advance_block]
      exact .awaitingKey x hs (hi ▸ hd)
    | awaitingVblank x y n hi =>
      rw [State.advance_block]
      exact .awaitingVblank x y n hs (hi ▸ hd)
    | faulted kind =>
      rw [State.advance_raise]
      exact .fault kind hs

theorem StepCourse.reports {s t : State} (h : StepCourse s t) : ∃ r, t.status = some r ∧ t.latch = none := by
  cases h <;> exact ⟨_, rfl, rfl⟩

/-- Every step has a next state: a halted report, a no-op, or the end of an instruction. -/
theorem step_answers (s : State) : ∃ t, step s = .next t := by
  cases hs : s.halt with
  | some f => exact ⟨_, step_of_halted hs⟩
  | none =>
    cases hd : decode s.fetchWord with
    | none => exact ⟨_, step_of_unknown hs hd⟩
    | some i =>
      obtain ⟨u, hu, _⟩ := exec_ends i s.advance
      exact ⟨u.endStep, by rw [step_of_instr hs hd, hu]; rfl⟩

theorem hostReply_step {s t : State} (h : step s = .next t) : hostReply .step s = .status t.status := by
  simp only [hostReply, h]

/-- Settles O10: a step answers a next state, and each of its courses reports a status and ends by clearing the latch. -/
theorem everyStepReportsAndClearsLatch : Obligations.EveryStepReportsAndClearsLatch := by
  intro s
  obtain ⟨t, hstep⟩ := step_answers s
  obtain ⟨r, hstatus, hlatch⟩ := (step_course hstep).reports
  exact ⟨t, r, hstep, hstep, hstatus ▸ hostReply_step hstep, hstatus, hlatch⟩

/-- Settles O11: by the course of the step, which fixes the reported status. -/
theorem statusTellsPcAndHalt : Obligations.StatusTellsPcAndHalt := by
  intro s t r hstep hstatus
  cases step_course hstep with
  | completed i u hs hd hu => cases hstatus; exact ⟨hs, hu, i, hd⟩
  | unknownOpcode hs hd => cases hstatus; exact ⟨hs, hs, rfl, rfl, hd⟩
  | awaitingKey x hs hd => cases hstatus; exact ⟨hs, hs, rfl, x, hd⟩
  | awaitingVblank x y n hs hd => cases hstatus; exact ⟨hs, hs, rfl, x, y, n, hd⟩
  | fault kind hs => cases hstatus; exact ⟨hs, rfl, rfl, rfl, rfl⟩
  | halted f hs => cases hstatus; exact ⟨hs, hs, rfl⟩

/-- Settles O8: the advance of the fetch, the report, and the end of the step. -/
theorem unknownOpcodeIsNoOp : Obligations.UnknownOpcodeIsNoOp := by
  intro s hs hd
  have hadvance : SameExcept [.latch] s s.advance := s.advance_same.mono (List.nil_subset _)
  exact ⟨_, step_of_unknown hs hd, rfl, rfl, hs, rfl, hadvance.trans (s.advance.setStatus_endStep_same _)⟩

/-! ### Faults (60_exceptions.md R146, R147) -/

/-- Settles O12: the one course that reports a fault writes the halt record and the latch. -/
theorem faultingStepIsPrecise : Obligations.FaultingStepIsPrecise := by
  intro s t f hstep hfault
  cases step_course hstep with
  | fault kind =>
    cases hfault
    exact ⟨rfl, rfl, rfl, rfl, rfl, (s.setHalt_same _).append (State.setStatus_endStep_same _ _)⟩
  | _ => cases hfault

theorem State.raise_status_kind {s : State} {kind : FaultKind} {f : FaultRecord}
    (h : (s.raise kind).status = some (.fault f)) : f.kind = kind := by
  cases h
  rfl

/-- The condition under which an instruction raises a fault of each kind (60_exceptions.md R146). -/
def FaultCause (i : Instr) (s : State) : FaultKind → Prop
  | .stackOverflow => (∃ nnn, i = .call nnn) ∧ s.cfg.stackDepth ≤ s.sp
  | .stackUnderflow => i = .ret ∧ s.sp = 0
  | .keyIndexOutOfRange => ∃ x, (i = .skp x ∨ i = .sknp x) ∧ 16 ≤ (s.getV x).toNat ∧ s.cfg.keyOutOfRange = .fault
  | .fontWrite => s.cfg.fontWrite = .fault ∧ ∃ x, (i = .ldB x ∧ ∃ k, k < 3 ∧ (s.indexed k).toNat < 0x050) ∨
      (i = .storeRegs x ∧ ∃ k, k ≤ x.toNat ∧ (s.indexed k).toNat < 0x050)

/-- A fault is reported only where it is raised, and there its cause is the condition of that course. -/
theorem exec_faultCause {i : Instr} {s t : State} {f : FaultRecord} (h : exec i s = .next t)
    (hf : t.status = some (.fault f)) : FaultCause i s f.kind := by
  cases i with
  | ret =>
    cases e : s.stack with
    | nil =>
      rw [exec_ret_nil e] at h
      cases h
      rw [State.raise_status_kind hf]
      exact ⟨rfl, congrArg List.length e⟩
    | cons a rest => rw [exec_ret_cons e] at h; cases h; cases hf
  | call nnn =>
    rcases Nat.lt_or_ge s.sp s.cfg.stackDepth with e | e
    · rw [exec_call_room nnn e] at h; cases h; cases hf
    · rw [exec_call_full nnn e] at h
      cases h
      rw [State.raise_status_kind hf]
      exact ⟨⟨nnn, rfl⟩, e⟩
  | drw x y n =>
    cases hg : s.drawGated with
    | false => rw [exec_drw_open x y n hg] at h; cases h; cases hf
    | true =>
      cases hfaker : s.cfg.quirks.displayWaitFaker with
      | true => rw [exec_drw_faker x y n hg hfaker] at h; cases h; cases hf
      | false => rw [exec_drw_blocked x y n hg hfaker] at h; cases h; cases hf
  | skp x =>
    cases e : keyIndex s.cfg.keyOutOfRange (s.getV x) with
    | none =>
      rw [exec_skp_none e] at h
      cases h
      rw [State.raise_status_kind hf]
      exact ⟨x, .inl rfl, keyIndex_none.mp e⟩
    | some k => rw [exec_skp_key e] at h; cases h; cases hf
  | sknp x =>
    cases e : keyIndex s.cfg.keyOutOfRange (s.getV x) with
    | none =>
      rw [exec_sknp_none e] at h
      cases h
      rw [State.raise_status_kind hf]
      exact ⟨x, .inr rfl, keyIndex_none.mp e⟩
    | some k => rw [exec_sknp_key e] at h; cases h; cases hf
  | ldVxK x =>
    cases e : s.latch with
    | none => rw [exec_ldVxK_none x e] at h; cases h; cases hf
    | some k => rw [exec_ldVxK_some x e] at h; cases h; cases hf
  | ldB x =>
    cases e : s.storeFaults 3 with
    | true =>
      rw [exec_ldB_fault x e] at h
      cases h
      rw [State.raise_status_kind hf]
      obtain ⟨hpolicy, hfont⟩ := (s.storeFaults_iff 3).mp e
      exact ⟨hpolicy, x, .inl ⟨rfl, hfont⟩⟩
    | false => rw [exec_ldB_store x e] at h; cases h; cases hf
  | storeRegs x =>
    cases e : s.storeFaults (x.toNat + 1) with
    | true =>
      rw [exec_storeRegs_fault x e] at h
      cases h
      rw [State.raise_status_kind hf]
      obtain ⟨hpolicy, k, hk, hfont⟩ := (s.storeFaults_iff _).mp e
      exact ⟨hpolicy, x, .inr ⟨rfl, k, Nat.le_of_lt_succ hk, hfont⟩⟩
    | false => rw [exec_storeRegs_store x e] at h; cases h; cases hf
  | _ => cases h; cases hf

/-- Settles O13: the cause of the fault an instruction reports, for each kind (`exec_faultCause`). -/
theorem faultsAreThoseListed : Obligations.FaultsAreThoseListed := by
  intro i s t ⟨kind, addr, word⟩ h hf
  cases kind <;> exact exec_faultCause h hf

/-! ### The timers (60_exceptions.md R156, 10_state.md R38) -/

/-- A Dxyn whose gate is shut under `display_wait_faker`: it ticks inline (40_display.md R92, D16). -/
def TicksInline (i : Instr) (s : State) : Prop :=
  s.cfg.quirks.displayWait = true ∧ s.cfg.quirks.displayWaitFaker = true ∧ s.vblankSeen = false ∧
    ∃ x y n, i = .drw x y n

theorem State.drawGated_iff {s : State} :
    s.drawGated = true ↔ s.cfg.quirks.displayWait = true ∧ s.vblankSeen = false := by
  simp [State.drawGated]

/-- The writes of Dxyn to a timer are those of the inline tick. -/
theorem mayWrite_drw_timer {x y : RegIx} {n : Nibble} {s : State} {p : Part} (hp : p ∈ [.delayTimer, .soundTimer])
    (h : mayWrite (.drw x y n) s p) : TicksInline (.drw x y n) s := by
  rcases h with hbody | ⟨c, r, rfl⟩ | ⟨hgated, hfaker, _⟩
  · rcases List.mem_pair.mp hp with rfl | rfl <;> simp at hbody
  · simp at hp
  · obtain ⟨hwait, hseen⟩ := State.drawGated_iff.mp hgated
    exact ⟨hwait, hfaker, hseen, x, y, n, rfl⟩

/-- The writers of the delay timer. -/
theorem mayWrite_delayTimer {i : Instr} {s : State} (h : mayWrite i s .delayTimer) :
    (∃ x, i = .ldDtVx x) ∨ TicksInline i s := by
  cases i with
  | ldDtVx x => exact .inl ⟨x, rfl⟩
  | drw x y n => exact .inr (mayWrite_drw_timer (by simp) h)
  | _ => simp [mayWrite, State.mem_storedParts, mem_regsTo] at h

/-- The writers of the sound timer. -/
theorem mayWrite_soundTimer {i : Instr} {s : State} (h : mayWrite i s .soundTimer) :
    (∃ x, i = .ldStVx x) ∨ TicksInline i s := by
  cases i with
  | ldStVx x => exact .inl ⟨x, rfl⟩
  | drw x y n => exact .inr (mayWrite_drw_timer (by simp) h)
  | _ => simp [mayWrite, State.mem_storedParts, mem_regsTo] at h

/-- The writer of the vblank flag. -/
theorem mayWrite_vblankSeen {i : Instr} {s : State} (h : mayWrite i s .vblankSeen) : ∃ x y n, i = .drw x y n := by
  cases i with
  | drw x y n => exact ⟨x, y, n, rfl⟩
  | _ => simp [mayWrite, State.mem_storedParts, mem_regsTo] at h

/-- Settles O27: the writers of the timers and of the vblank flag are those of the frame. -/
theorem timersMoveOnlyByListed : Obligations.TimersMoveOnlyByListed :=
  fun _ _ _ h => ⟨fun hne => mayWrite_delayTimer (mayWrite_of_changed h hne),
    fun hne => mayWrite_soundTimer (mayWrite_of_changed h hne),
    fun hne => mayWrite_vblankSeen (mayWrite_of_changed h hne)⟩

end Sys2Proof.Machine
end

section
/-! PROOFS. The statements of 60_exceptions.md about the host's calls (R155, R160 to R164): construct, tick and the inputs, and
the invariant along every sequence of calls. -/

namespace Sys2Proof.Machine

/-! ### Construct (60_exceptions.md R160, 10_state.md R44) -/

theorem State.construct_displayFits (cfg : Config) : (State.construct cfg).displayFits :=
  Display.blank_fits cfg.width cfg.height

theorem State.construct_getV (cfg : Config) (x : RegIx) : (State.construct cfg).getV x = 0#8 := by
  simp [State.construct, State.getV]

theorem State.construct_keyHeld (cfg : Config) (k : Key) : (State.construct cfg).keyHeld k = false := by
  simp [State.construct, State.keyHeld]

/-- No byte is listed after construction: the font cells read as the font, every other byte as 0 (20_memory.md R52, D6). -/
theorem State.construct_readByte (cfg : Config) (a : Addr) :
    (State.construct cfg).readByte a = if h : a.toNat < 80 then cfg.font[a.toNat] else 0#8 := by
  split_ifs with h
  · exact State.readByte_font _ a h
  · exact State.readByte_ram _ a h

/-- Settles O59: each field at the value it was constructed with. -/
theorem constructValues : Obligations.ConstructValues :=
  fun cfg => ⟨rfl, rfl, rfl, rfl, rfl, rfl, rfl, rfl, rfl, rfl, rfl, rfl, State.construct_getV cfg,
    State.construct_keyHeld cfg, State.construct_displayFits cfg, Display.pix_blank cfg.width cfg.height,
    State.construct_readByte cfg⟩

/-- Memory lists nothing, `I` is 0, the stack is empty, the display is blank. -/
theorem State.construct_inv (cfg : Config) : (State.construct cfg).Inv where
  memory := ⟨List.Pairwise.nil, fun _ hc => absurd hc List.not_mem_nil⟩
  index := Nat.zero_lt_succ _
  stack := Nat.zero_le _
  display := State.construct_displayFits cfg

/-- Settles O20: reset is the construction with this hardware's configuration. -/
theorem resetMeetsInvariant : Obligations.ResetMeetsInvariant :=
  ⟨State.construct_inv, State.construct_inv Config.hardware⟩

/-! ### Tick and the inputs (60_exceptions.md R155, R161, R162) -/

/-- Settles O29: a tick counts both timers down and sets the flag, and its frame is those three. -/
theorem tickCountsDown : Obligations.TickCountsDown :=
  fun s => ⟨rfl, countDown_toNat s.dt, countDown_toNat s.st, rfl, rfl, s.tick_same⟩

/-- Settles O32: the two calls are the updates of `keys` and of the latch. -/
theorem hostInputsReplace : Obligations.HostInputsReplace :=
  fun s => ⟨fun k => ⟨s.setKeys k, rfl, rfl, rfl, s.setKeys_same k⟩,
    fun k => ⟨s.setLatch (some k), rfl, rfl, rfl, s.setLatch_same (some k)⟩⟩

/-! ### The invariant along the host's calls (60_exceptions.md R160, R164) -/

/-- A load that fits puts the cells of the ROM after those below 0x200, zeroes `I`, empties the stack and keeps the display;
one that does not fit changes nothing. -/
theorem State.Inv.load {s : State} (hs : s.Inv) (rom : List Byte) : (load rom s).2.Inv := by
  rcases Nat.lt_or_ge 3584 rom.length with hlarge | hfits
  · rw [load_oversized s hlarge]
    exact hs
  · rw [load_fits s hfits]
    exact ⟨Memory.wf_loaded hs.memory rom hfits, Nat.zero_lt_succ _, Nat.zero_le _, hs.display⟩

/-- One call of the host keeps the invariant: load and step do, and the other calls touch none of its fields. -/
theorem State.Inv.hostCall {op : HostOp} {s t : State} (hs : s.Inv) (h : hostCall op s = .next t) : t.Inv := by
  cases op with
  | load rom => cases h; exact hs.load rom
  | step => exact hs.step h
  | tick => cases h; exact hs.congr rfl s.tick_sameCore
  | setKeys k => cases h; exact hs.congr rfl ⟨rfl, rfl, rfl, rfl⟩
  | latchKey k => cases h; exact hs.congr rfl ⟨rfl, rfl, rfl, rfl⟩
  | snapshot => cases h; exact hs

/-- Settles O21: what every call of a sequence keeps, the sequence keeps (`hostRun_keeps`), by induction on the calls. -/
theorem hostRunKeepsInvariant : Obligations.HostRunKeepsInvariant := by
  intro ops s t hs h
  exact hostRun_keeps (P := State.Inv) (fun _ _ _ _ hu hc => hu.hostCall hc) hs h

end Sys2Proof.Machine
end

section
/-! PROOFS. The statements of 70_reset_and_hazards.md section 1: the values after reset (R170), and the two outcomes of a
load (R172, R173). -/

namespace Sys2Proof.Machine

/-! ### A load as a call of the host (70_reset_and_hazards.md R172, R173) -/

theorem hostCall_load (rom : List Byte) (s : State) : hostCall (.load rom) s = .next (load rom s).2 := rfl

theorem hostReply_load (rom : List Byte) (s : State) : hostReply (.load rom) s = .loaded (load rom s).1 := rfl

theorem State.loaded_getV (s : State) (rom : List Byte) (x : RegIx) : (s.loaded rom).getV x = 0#8 := by
  simp [State.loaded, State.getV]

/-- Settles O30: a load that fits answers `State.loaded`, whose bytes are those of `State.readByte_loaded`. -/
theorem loadInstallsRom : Obligations.LoadInstallsRom := by
  intro rom s hfits
  refine ⟨s.loaded rom, ?_, ?_, s.readByte_loaded rom, s.loaded_getV rom, rfl, rfl, rfl, rfl, rfl, rfl, rfl, rfl, rfl, rfl,
    rfl⟩
  · rw [hostCall_load, load_fits s hfits]
  · rw [hostReply_load, load_fits s hfits]

/-- Settles O31: a load that does not fit answers the state it was given. -/
theorem loadRefusesOversizedRom : Obligations.LoadRefusesOversizedRom := by
  intro rom s hlarge
  rw [hostCall_load, hostReply_load, load_oversized s hlarge]
  exact ⟨rfl, rfl⟩

/-! ### The values after reset (70_reset_and_hazards.md R170) -/

/-- Memory after reset, from address 0 on, is the font and then zeros: what `State.construct_readByte` says by cases, as one
list read with the default 0. -/
theorem State.reset_readByte (a : Addr) : State.reset.readByte a = Config.conventionalFont.toList.getD a.toNat 0#8 := by
  refine (State.construct_readByte Config.hardware a).trans ?_
  rw [List.getD_eq_getElem?_getD, Vector.getElem?_toList]
  split_ifs with h
  · rw [Vector.getElem?_eq_getElem h]
    rfl
  · rw [Vector.getElem?_eq_none (Nat.le_of_not_lt h)]
    rfl

/-- Settles O28: reset is the construction with this hardware's configuration, so each field is as `constructValues` says,
the parameters and quirks are those of `Config.hardware`, and the font bytes those of `Config.conventionalFont`. -/
theorem resetValues : Obligations.ResetValues :=
  ⟨rfl, rfl, rfl, rfl, rfl, rfl, rfl, rfl, rfl, rfl, rfl, rfl, rfl, rfl, rfl, rfl, rfl, rfl, rfl, rfl, rfl, rfl, rfl,
    State.construct_getV Config.hardware, State.construct_keyHeld Config.hardware,
    State.construct_displayFits Config.hardware, Display.pix_blank Config.hardware.width Config.hardware.height,
    State.reset_readByte⟩

end Sys2Proof.Machine
end
